-- ==== Sys2Proof/Word.lean ====
section
/-! DEFINITION. The bit and the bit sequence (R12): a sequence is written oldest bit first. -/

namespace Sys2Proof

/-- R12: a bit is "a single binary value, 0 or 1"; `true` stands for 1. -/
abbrev Bit := Bool

/-- R12: a bit sequence in arrival order; element 0 arrived first (is the oldest). -/
abbrev BitSeq := List Bit

end Sys2Proof
end

