-- ==== Sys2Proof/Syntax.lean ====
section
/-! DEFINITION. The names of the machine: alignment states (R21), values of n (R22), fault causes (R186), events (R14)
and the instructions, one constructor per row of the opcode table (R80, R73). An arm's operands are the bits its row's
pattern does not fix. -/

namespace Sys2Proof

/-- R21: the alignment state, "one of four named states". -/
inductive AlignState where
  | hunting
  | verifying
  | locked
  | lossCheck
  deriving DecidableEq, Repr

/-- R22, R72: the selector `NSEL`; its four codes stand for n = 1, 2, 4 and 6. -/
inductive NSel where
  | n1
  | n2
  | n4
  | n6
  deriving DecidableEq, Repr

/-- R186: the three causes of a fault. -/
inductive FaultCause where
  /-- a step attempted in `VERIFYING` with n in {4, 6} -/
  | illVn
  /-- a step attempted in `LOSS_CHECK` with n in {1, 2} -/
  | illCn
  /-- a step that would append to a buffer of `ACC_CAP` bits -/
  | accOverflow
  deriving DecidableEq, Repr

/-- R14: what a step may emit. -/
inductive Event where
  | stateChanged (S : AlignState)
  | payloadRecovered (s : BitSeq)
  deriving DecidableEq, Repr

/-- The instructions: the 17 arms of R80 and the two input symbols of R73. -/
inductive Instr where
  /-- `H_MISS`, `00nn0000`, R131 -/
  | hMiss (n : NSel)
  /-- `H_HIT`, `00nn0001`, R132 -/
  | hHit (n : NSel)
  /-- `V_WAIT`, `010n0000`, R133 -/
  | vWait (n : NSel)
  /-- `V1_GUARD_OK`, `01001m10`, R134 -/
  | v1GuardOk (mk : Bit)
  /-- `V1_GUARD_FAIL`, `01001m00`, R135 -/
  | v1GuardFail (mk : Bit)
  /-- `V2_MARK_OK`, `010111g0`, R136 -/
  | v2MarkOk (gd : Bit)
  /-- `V2_MARK_FAIL`, `010110g0`, R137 -/
  | v2MarkFail (gd : Bit)
  /-- `ILL_VN`, `011nxxxx`, R138; `x` is the four condition bits `CP MK GD HIT` -/
  | illVn (n : NSel) (x : BitVec 4)
  /-- `L_WAIT`, `10nn0000`, R150 -/
  | lWait (n : NSel)
  /-- `L_MARK_OK`, `10nn11g0`, R151 -/
  | lMarkOk (n : NSel) (gd : Bit)
  /-- `L_MARK_FAIL`, `10nn10g0`, R152 -/
  | lMarkFail (n : NSel) (gd : Bit)
  /-- `ILL_CN`, `110nxxxx`, R158 -/
  | illCn (n : NSel) (x : BitVec 4)
  /-- `C_WAIT`, `111n0000`, R153 -/
  | cWait (n : NSel)
  /-- `C4_MARK_OK`, `111011g0`, R154 -/
  | c4MarkOk (gd : Bit)
  /-- `C4_MARK_FAIL`, `111010g0`, R156 -/
  | c4MarkFail (gd : Bit)
  /-- `C6_MARK_OK`, `111111g0`, R155 -/
  | c6MarkOk (gd : Bit)
  /-- `C6_MARK_FAIL`, `111110g0`, R157 -/
  | c6MarkFail (gd : Bit)
  /-- `BIT0`, the input symbol 0 (R73), processed by the step of R171 or R172 -/
  | bit0
  /-- `BIT1`, the input symbol 1 -/
  | bit1
  deriving DecidableEq, Repr

end Sys2Proof
end

