-- ==== Sys2Proof/WellFormed.lean ====
section
/-! DEFINITION. Which instruction terms stand for a word the hardware can form: the values of n a row's pattern admits
(R80) and the selectors R83 calls unconstructible. -/

namespace Sys2Proof

/-- n in {1, 2}: the pattern bits `0n`. -/
def NSel.isLow : NSel → Bool
  | .n1 => true
  | .n2 => true
  | .n4 => false
  | .n6 => false

/-- n in {4, 6}: the pattern bits `1n`. -/
def NSel.isHigh (n : NSel) : Bool := !n.isLow

/-- The check. `V_WAIT` and `ILL_CN` admit n in {1, 2}, `C_WAIT` and `ILL_VN` n in {4, 6} (R80). By R83 `MK` = `GD` = 1
never occurs, and the condition bits of an illegal pair are all 0. -/
def Instr.wellFormed : Instr → Bool
  | .hMiss _ => true
  | .hHit _ => true
  | .vWait n => n.isLow
  | .v1GuardOk mk => !mk
  | .v1GuardFail _ => true
  | .v2MarkOk gd => !gd
  | .v2MarkFail _ => true
  | .illVn n x => n.isHigh && x == 0#4
  | .lWait _ => true
  | .lMarkOk _ gd => !gd
  | .lMarkFail _ _ => true
  | .illCn n x => n.isLow && x == 0#4
  | .cWait n => n.isHigh
  | .c4MarkOk gd => !gd
  | .c4MarkFail _ => true
  | .c6MarkOk gd => !gd
  | .c6MarkFail _ => true
  | .bit0 => true
  | .bit1 => true

end Sys2Proof
end

