-- ==== Sys2Proof/Decode.lean ====
section
/-! DEFINITION. The encodings of `30_encoding.md`: field codes (R71, R72, R78), the two formats (R73, R74), the arm
table (R80), the decoder, total and refusing by name (R83), and the encoder. -/

namespace Sys2Proof

/-- R71. -/
def AlignState.code : AlignState → BitVec 2
  | .hunting => 0b00#2
  | .verifying => 0b01#2
  | .locked => 0b10#2
  | .lossCheck => 0b11#2

/-- R71 read back: all four codes are legal. -/
def AlignState.ofCode (c : BitVec 2) : AlignState :=
  if c = 0b00#2 then .hunting else if c = 0b01#2 then .verifying else if c = 0b10#2 then .locked else .lossCheck

/-- R72. -/
def NSel.code : NSel → BitVec 2
  | .n1 => 0b00#2
  | .n2 => 0b01#2
  | .n4 => 0b10#2
  | .n6 => 0b11#2

/-- R72 read back: all four codes are legal. -/
def NSel.ofCode (c : BitVec 2) : NSel :=
  if c = 0b00#2 then .n1 else if c = 0b01#2 then .n2 else if c = 0b10#2 then .n4 else .n6

/-- R72 `nval`: the value of n in frames. -/
def NSel.val : NSel → Nat
  | .n1 => 1
  | .n2 => 2
  | .n4 => 4
  | .n6 => 6

/-- R78: `FAULT_CODE`; 0 is no fault and 4 to 7 are never produced. -/
def FaultCause.code : FaultCause → BitVec 3
  | .illVn => 0b001#3
  | .illCn => 0b010#3
  | .accOverflow => 0b011#3

/-- A word of one of the two formats: `SYM` (R73), one bit, or `SEL` (R74), the arm selector. -/
inductive Encoded where
  | sym (w : BitVec 1)
  | sel (w : BitVec 8)
  deriving DecidableEq, Repr

/-- R74: the selector word from its fields. -/
def selWord (S : BitVec 2) (n : BitVec 2) (cp mk gd hit : Bit) : BitVec 8 :=
  S ++ n ++ BitVec.ofBool cp ++ BitVec.ofBool mk ++ BitVec.ofBool gd ++ BitVec.ofBool hit

/-- Why the decoder refuses a word. -/
inductive DecodeError where
  /-- no row of R80 matches the selector (144 values, R81) -/
  | noRow (w : BitVec 8)
  /-- a row matches through a don't-care bit only, and R83 says the value never occurs (68 values) -/
  | unconstructible (w : BitVec 8)
  deriving DecidableEq, Repr

/-- One row of the arm table of R80: a selector matches when `(SEL & mask) = match`. `build` reads the row's free bits. -/
structure ArmRow where
  mnemonic : String
  mtch : BitVec 8
  mask : BitVec 8
  build : BitVec 8 → Instr

/-- The field `NSEL` of a selector (R74). -/
def selN (w : BitVec 8) : NSel := NSel.ofCode (w.extractLsb' 4 2)

/-- The bit `MK` of a selector (R74). -/
def selMk (w : BitVec 8) : Bit := w.getLsbD 2

/-- The bit `GD` of a selector (R74). -/
def selGd (w : BitVec 8) : Bit := w.getLsbD 1

/-- The bits `CP MK GD HIT` of a selector (R74). -/
def selLow (w : BitVec 8) : BitVec 4 := w.extractLsb' 0 4

/-- The arm table of R80, in its order: the rows of `HUNTING` and `VERIFYING`. -/
def armTableHV : List ArmRow := [
  ⟨"H_MISS", 0x00#8, 0xCF#8, fun w => .hMiss (selN w)⟩,
  ⟨"H_HIT", 0x01#8, 0xCF#8, fun w => .hHit (selN w)⟩,
  ⟨"V_WAIT", 0x40#8, 0xEF#8, fun w => .vWait (selN w)⟩,
  ⟨"V1_GUARD_OK", 0x4A#8, 0xFB#8, fun w => .v1GuardOk (selMk w)⟩,
  ⟨"V1_GUARD_FAIL", 0x48#8, 0xFB#8, fun w => .v1GuardFail (selMk w)⟩,
  ⟨"V2_MARK_OK", 0x5C#8, 0xFD#8, fun w => .v2MarkOk (selGd w)⟩,
  ⟨"V2_MARK_FAIL", 0x58#8, 0xFD#8, fun w => .v2MarkFail (selGd w)⟩,
  ⟨"ILL_VN", 0x60#8, 0xE0#8, fun w => .illVn (selN w) (selLow w)⟩]

/-- The arm table of R80: the rows of `LOCKED` and `LOSS_CHECK`. -/
def armTableLC : List ArmRow := [
  ⟨"L_WAIT", 0x80#8, 0xCF#8, fun w => .lWait (selN w)⟩,
  ⟨"L_MARK_OK", 0x8C#8, 0xCD#8, fun w => .lMarkOk (selN w) (selGd w)⟩,
  ⟨"L_MARK_FAIL", 0x88#8, 0xCD#8, fun w => .lMarkFail (selN w) (selGd w)⟩,
  ⟨"ILL_CN", 0xC0#8, 0xE0#8, fun w => .illCn (selN w) (selLow w)⟩,
  ⟨"C_WAIT", 0xE0#8, 0xEF#8, fun w => .cWait (selN w)⟩,
  ⟨"C4_MARK_OK", 0xEC#8, 0xFD#8, fun w => .c4MarkOk (selGd w)⟩,
  ⟨"C4_MARK_FAIL", 0xE8#8, 0xFD#8, fun w => .c4MarkFail (selGd w)⟩,
  ⟨"C6_MARK_OK", 0xFC#8, 0xFD#8, fun w => .c6MarkOk (selGd w)⟩,
  ⟨"C6_MARK_FAIL", 0xF8#8, 0xFD#8, fun w => .c6MarkFail (selGd w)⟩]

/-- The arm table of R80. -/
def armTable : List ArmRow := armTableHV ++ armTableLC

/-- R80: `(SEL & mask) = match`. -/
def ArmRow.matchesWord (r : ArmRow) (w : BitVec 8) : Bool := w &&& r.mask == r.mtch

/-- The row a selector falls under, by the masks alone. -/
def rowOf (w : BitVec 8) : Option ArmRow := armTable.find? (fun r => r.matchesWord w)

/-- The arm of a selector. R83: a value that no step can form is refused, not given an arm. -/
def decodeSel (w : BitVec 8) : Except DecodeError Instr :=
  match rowOf w with
  | none => .error (.noRow w)
  | some r => if (r.build w).wellFormed then .ok (r.build w) else .error (.unconstructible w)

/-- R73: there are exactly two symbols. -/
def decodeSym (w : BitVec 1) : Instr := if w = 1#1 then .bit1 else .bit0

/-- The decoder, total on the words of both formats. -/
def decode : Encoded → Except DecodeError Instr
  | .sym w => .ok (decodeSym w)
  | .sel w => decodeSel w

/-- The encoder, from the patterns of R80 and R73. -/
def encode : Instr → Encoded
  | .hMiss n => .sel (0b00#2 ++ n.code ++ 0b0000#4)
  | .hHit n => .sel (0b00#2 ++ n.code ++ 0b0001#4)
  | .vWait n => .sel (0b01#2 ++ n.code ++ 0b0000#4)
  | .v1GuardOk mk => .sel (0b01001#5 ++ BitVec.ofBool mk ++ 0b10#2)
  | .v1GuardFail mk => .sel (0b01001#5 ++ BitVec.ofBool mk ++ 0b00#2)
  | .v2MarkOk gd => .sel (0b010111#6 ++ BitVec.ofBool gd ++ 0b0#1)
  | .v2MarkFail gd => .sel (0b010110#6 ++ BitVec.ofBool gd ++ 0b0#1)
  | .illVn n x => .sel (0b01#2 ++ n.code ++ x)
  | .lWait n => .sel (0b10#2 ++ n.code ++ 0b0000#4)
  | .lMarkOk n gd => .sel (0b10#2 ++ n.code ++ 0b11#2 ++ BitVec.ofBool gd ++ 0b0#1)
  | .lMarkFail n gd => .sel (0b10#2 ++ n.code ++ 0b10#2 ++ BitVec.ofBool gd ++ 0b0#1)
  | .illCn n x => .sel (0b11#2 ++ n.code ++ x)
  | .cWait n => .sel (0b11#2 ++ n.code ++ 0b0000#4)
  | .c4MarkOk gd => .sel (0b111011#6 ++ BitVec.ofBool gd ++ 0b0#1)
  | .c4MarkFail gd => .sel (0b111010#6 ++ BitVec.ofBool gd ++ 0b0#1)
  | .c6MarkOk gd => .sel (0b111111#6 ++ BitVec.ofBool gd ++ 0b0#1)
  | .c6MarkFail gd => .sel (0b111110#6 ++ BitVec.ofBool gd ++ 0b0#1)
  | .bit0 => .sym 0b0#1
  | .bit1 => .sym 0b1#1

/-- The instruction the decoder reads from an opcode-table word. A row of 8 bits is of format `SEL`, a shorter one (1 bit)
of format `SYM`; a word with a bit above its format is none. DESIGN CHOICE (notes/assumptions/1.md): when the table's 1-bit
rows are presented as 8 bits they cannot be told from `H_MISS` and `H_HIT`, and the selector's reading is taken. -/
def decodeTableWord (nbits w : Nat) : Option Instr :=
  if nbits = 8 then
    if w < 256 then (decode (.sel (BitVec.ofNat 8 w))).toOption else none
  else if nbits < 8 then
    if w < 2 then (decode (.sym (BitVec.ofNat 1 w))).toOption else none
  else none

end Sys2Proof
end

