-- ==== Sys2Proof/Config.lean ====
section
/-! DEFINITION. The parameters of the block: those the source fixes (R8) and the capacities the spec decides (R9).
The block has no free value: no rule leaves the value of a register or of an event open (see notes/assumptions/15.md
for the port bits the spec leaves unspecified, which the model leaves unconstrained). -/

namespace Sys2Proof.Config

/-- R8 `OCTET_BITS`: size of the marker, of the window and of the trailing octet. -/
def octetBits : Nat := 8

/-- R8, R37 `MARKER`: the alignment marker, compared on all 8 bits. -/
def marker : BitVec 8 := 0x9B#8

/-- R8, R37 `GUARD`: of this pattern only the bit of octet index 1 takes part in a comparison. -/
def guardOctet : BitVec 8 := 0xD4#8

/-- R8 `GUARD_BIT_INDEX`: most significant bit first, counted from 0. -/
def guardBitIndex : Nat := 1

/-- R8 `GUARD_BIT_VALUE`: the value the guard bit must have. -/
def guardBitValue : Bit := true

/-- R8 `FRAME_BITS`. -/
def frameBits : Nat := 256

/-- R8 `LOCKED_TARGET`: frames per checkpoint in `LOCKED`, whatever n is. -/
def lockedTarget : Nat := 2

/-- R8 `PAYLOAD_TRIM`: bits removed from the end of the buffer to form a payload. -/
def payloadTrim : Nat := 8

/-- R9 `ACC_CAP`: 6 frames. -/
def accCap : Nat := 1536

/-- R9 `RQ_CAP`. -/
def rqCap : Nat := 512

/-- R206: "A model that needs only termination may use the simpler bound 768" on the steps of one drain. -/
def drainBound : Nat := 768

end Sys2Proof.Config
end

