-- ==== Sys2Proof/Machine/State.lean ====
section
/-! DEFINITION. The state of one block with its surroundings' input (R20, R174), the reasons a step can stop, and the
state after reset (R43). -/

namespace Sys2Proof.Machine

/-- R174: the input pins during one clock cycle. -/
structure PortIn where
  /-- `rst`, synchronous and active high (R200) -/
  rst : Bit
  /-- `bit_valid`: the supplier offers a bit on `bit_in` -/
  bitValid : Bit
  /-- `bit_in`, meaningful only with `bit_valid` = 1 -/
  bitIn : Bit
  deriving DecidableEq, Repr

/-- The whole state: the tuple of R20, then what stands outside the block, the input still to come and the events of the
last step. `ACC` and `RQ` are held as the bit sequences R28 and R30 describe them by, so `ACC_LEN` and `RQ_LEN` are their
lengths (`State.accLen`, `State.rqLen`); bits at and above a length are never read (R57) and are not held
(notes/assumptions/4.md). -/
structure State where
  /-- `STATE`, 2 bits (R21) -/
  state : AlignState
  /-- `NSEL`, 2 bits: the frame-advance counter n (R22) -/
  nsel : NSel
  /-- `WIN`, 8 bits: the sliding window, octet index 7 (the least significant bit) newest (R24) -/
  win : BitVec 8
  /-- `WIN_LEN`, 4 bits, 0 to 8 (R25) -/
  winLen : BitVec 4
  /-- `ACC[0 .. ACC_LEN-1]`, the accumulation buffer, index 0 oldest (R28, R29) -/
  acc : BitSeq
  /-- `RQ[0 .. RQ_LEN-1]`, the replay queue, index 0 the head (R30, R31) -/
  rq : BitSeq
  /-- `FAULT`, the sticky flag (R33) -/
  fault : Bit
  /-- `FAULT_CODE`, 3 bits (R33, R78) -/
  faultCode : BitVec 3
  /-- the input pins of this cycle and of the cycles to come; exhausted means `rst` = 0 and `bit_valid` = 0 (R177, R181) -/
  supply : List PortIn
  /-- the events the last step emitted, in order; not held into the next (R176) -/
  events : List Event
  deriving DecidableEq, Repr

/-- `ACC_LEN`, the 11-bit counter of R29. -/
abbrev State.accLen (s : State) : Nat := s.acc.length

/-- `RQ_LEN`, the 10-bit counter of R31. -/
abbrev State.rqLen (s : State) : Nat := s.rq.length

/-- No step of this block ends the machine: `raise Fault(code)` is a next state with `FAULT` = 1 (R190) and the halted block
goes on taking no step until reset (R191, R192), so there is no reason of this kind. Safe: nothing is stopped that the
hardware would go on with. -/
inductive Fault where
  deriving DecidableEq, Repr

/-- Why `exec` gives an instruction no next state. `step` never meets one of the last three (notes/assumptions/5.md). -/
inductive Refusal where
  /-- raised by an arm of `exec` that has no meaning yet; safe -/
  | notModelled (mnemonic : String)
  /-- raised by a meaning run in a cycle that processes no bit: reset, `FAULT` = 1, or `IDLE` (R170, R200); safe -/
  | noBit
  /-- raised by an arm that the selector of this cycle's step does not name (R75, R80, R83); safe -/
  | notSelected
  /-- raised by an input symbol other than the one this cycle's step processes (R73); safe -/
  | otherSymbol
  deriving DecidableEq, Repr

/-- R43: the state after reset. `supply` and `events` are the model's own fields: nothing is offered yet and reset emits no
event (DESIGN CHOICE, notes/assumptions/12.md). -/
def State.reset : State where
  state := .hunting
  nsel := .n1
  win := 0x00#8
  winLen := 0#4
  acc := []
  rq := []
  fault := false
  faultCode := 0b000#3
  supply := []
  events := []

end Sys2Proof.Machine
end

