-- ==== Sys2Proof/Machine/Operands.lean ====
section
/-! DEFINITION. What an arm reads from the state (R79): the target, the window sequence and octet, the trailing octet, the
payload and the snapshot; and the reads of the two bit stores (R14 `MemRead`, R50, R51). -/

namespace Sys2Proof.Machine

/-- R13 `octet_val`: the unsigned value of a bit sequence with its oldest bit most significant. A sequence of fewer than 8
bits has the value of `zext_8` of it, zeros on the most significant side (R79 d). -/
def octetVal (o : BitSeq) : Nat := o.foldl (fun v b => 2 * v + b.toNat) 0

/-- R13: the 8 bits of a vector by octet index, so that index i is vector bit `v[7-i]`. -/
def octetSeq (v : BitVec 8) : BitSeq :=
  [v.getLsbD 7, v.getLsbD 6, v.getLsbD 5, v.getLsbD 4, v.getLsbD 3, v.getLsbD 2, v.getLsbD 1, v.getLsbD 0]

/-- R14 `MemRead(store:a, k)`: the k bits at indices a to a+k-1 of a store, oldest first. -/
def memRead (store : BitSeq) (a k : Nat) : BitSeq := (store.drop a).take k

/-- The bit of `ACC` at index a; none at or above `ACC_LEN`, where no bit is defined (R28, R57). -/
def State.accBit (s : State) (a : Nat) : Option Bit := s.acc[a]?

/-- The bit of `RQ` at index a; none at or above `RQ_LEN` (R30, R57). -/
def State.rqBit (s : State) (a : Nat) : Option Bit := s.rq[a]?

/-- R23: the accumulator's target T in frames; none in `HUNTING`, where it is not defined. -/
def targetFrames (S : AlignState) (n : NSel) : Option Nat :=
  match S with
  | .hunting => none
  | .verifying => some n.val
  | .locked => some Config.lockedTarget
  | .lossCheck => some n.val

/-- R23, R79 a: the target in bits. -/
def targetBits (T : Nat) : Nat := T * Config.frameBits

/-- R82: the pairs of (`STATE`, n) for which no behaviour is defined. -/
def illegalPair (S : AlignState) (n : NSel) : Bool :=
  match S with
  | .hunting => false
  | .verifying => n.isHigh
  | .locked => false
  | .lossCheck => n.isLow

/-- R24: the window as a sequence, octet indices `8-WIN_LEN` to 7 of `WIN`, oldest first. -/
def State.windowSeq (s : State) : BitSeq := (octetSeq s.win).drop (8 - s.winLen.toNat)

/-- R101: the window sequence after the bit b is observed. -/
def windowNext (b : Bit) (s : State) : BitSeq :=
  if s.winLen < 8#4 then s.windowSeq ++ [b] else s.windowSeq.drop 1 ++ [b]

/-- R101: `WIN_LEN` after a bit is observed; it saturates at 8 (R25). -/
def winLenNext (s : State) : BitVec 4 := if s.winLen < 8#4 then s.winLen + 1#4 else 8#4

/-- R101: `WIN` after the bit b is observed, `zext_8(w')`. -/
def winNext (b : Bit) (s : State) : BitVec 8 := BitVec.ofNat 8 (octetVal (windowNext b s))

/-- R110: the trailing octet, the last 8 bits of a buffer. -/
def trailingOctet (acc : BitSeq) : BitSeq := memRead acc (acc.length - Config.octetBits) Config.octetBits

/-- R113 `FA.payload(T)`: the first `T*256 - 8` bits of the buffer as it stands after the append. -/
def faPayload (T : Nat) (s : State) : BitSeq := memRead s.acc 0 (targetBits T - Config.payloadTrim)

/-- R114 `FA.snapshot`: the whole buffer as it stands after the append. -/
def faSnapshot (s : State) : BitSeq := memRead s.acc 0 s.accLen

end Sys2Proof.Machine
end

