-- ==== Sys2Proof/Machine/Fetch.lean ====
section
/-! DEFINITION. Which bit a step processes (R170) and how the surroundings' input advances (R175, R177, R182), and the
placing of a table word where the next step meets it. -/

namespace Sys2Proof.Machine

/-- What the next clock edge does. -/
inductive StepKind where
  /-- `rst` = 1: every register takes its reset value and no step is performed (R200) -/
  | reset
  /-- `FAULT` = 1: no step (R191) -/
  | halted
  /-- `RQ_LEN` > 0: the head of the queue is processed (R172) -/
  | replay (b : Bit)
  /-- a bit is offered and accepted (R171) -/
  | accept (b : Bit)
  /-- nothing to do (R173) -/
  | idle
  deriving DecidableEq, Repr

/-- The input pins of this cycle; an exhausted supplier leaves `rst` = 0 and `bit_valid` = 0 (R181). -/
def State.pins (s : State) : PortIn := s.supply.headD ⟨false, false, false⟩

/-- R170: the choice of the step's source by priority, with reset above it (R200). -/
def stepKind (s : State) : StepKind :=
  if s.pins.rst then .reset
  else if s.fault then .halted
  else match s.rq with
    | b :: _ => .replay b
    | [] => if s.pins.bitValid then .accept s.pins.bitIn else .idle

/-- The bit of the step, if a step is taken. -/
def nextBit (s : State) : Option Bit :=
  match stepKind s with
  | .replay b => some b
  | .accept b => some b
  | .reset => none
  | .halted => none
  | .idle => none

/-- R73: the symbol the step fetches, from the port or from the head of the queue, as a word of format `SYM`. -/
def fetchSymbol (s : State) : Option (BitVec 1) := (nextBit s).map BitVec.ofBool

/-- R175: `bit_ready`, a function of registered state only. -/
def bitReady (s : State) : Bit := s.rq.isEmpty && !s.fault

/-- The level of the port `bit_ready` in a cycle: 0 during reset (R200), else R175 (DEDUCED, notes/assumptions/8.md). -/
def bitReadyPort (s : State) : Bit := !s.pins.rst && bitReady s

/-- R177 b: an offered bit that was not taken in this cycle is held for the next, whatever `rst` is then; the offers that
follow it wait. A cycle that offered none is over (notes/assumptions/2.md). -/
def holdOffer : List PortIn → List PortIn
  | [] => []
  | p :: ps =>
    if p.bitValid then
      match ps with
      | [] => [⟨false, true, p.bitIn⟩]
      | q :: qs => if q.bitValid then ⟨false, true, p.bitIn⟩ :: q :: qs else ⟨q.rst, true, p.bitIn⟩ :: qs
    else ps

/-- The input after this cycle. A bit offered with `bit_ready` = 1 is consumed (R171), whatever its step does. -/
def nextSupply (s : State) : List PortIn :=
  match stepKind s with
  | .accept _ => s.supply.tail
  | .reset => holdOffer s.supply
  | .halted => holdOffer s.supply
  | .replay _ => holdOffer s.supply
  | .idle => holdOffer s.supply

/-- The state at the start of this cycle's work on the registers: the input has advanced, and no event is out yet (R176). -/
def nextCycle (s : State) : State := { s with supply := nextSupply s, events := [] }

/-- A cycle that offers the bit b. -/
def PortIn.offer (b : Bit) : PortIn := ⟨false, true, b⟩

/-- A cycle that offers nothing. -/
def PortIn.pause : PortIn := ⟨false, false, false⟩

/-- A cycle with `rst` = 1. -/
def PortIn.reset : PortIn := ⟨true, false, false⟩

/-- Place the input symbol b where the next step fetches it: no fault, an empty queue, and the bit offered (R170). -/
def placeSymbol (s : State) (b : Bit) : State :=
  { s with fault := false, rq := [], supply := PortIn.offer b :: s.supply }

/-- The 8 bits that make the conditions `MK` = mk and `GD` = gd at a checkpoint; mk and gd are never both 1 (R36). -/
def checkpointOctet (mk gd : Bit) : BitVec 8 :=
  if mk then Config.marker else if gd then Config.guardOctet else 0x00#8

/-- Make the next step's selector the constructible word w (R75): the fields `STATE` and `NSEL` of w, then a window one bit
short of the marker where `HIT` = 1, a buffer one bit short of the checkpoint where `CP` = 1, an empty buffer where
`STATE` is not `HUNTING` and `CP` = 0, and the completing bit offered. -/
def placeSelector (s : State) (w : BitVec 8) : State :=
  let S := AlignState.ofCode (w.extractLsb' 6 2)
  let n := selN w
  let o := octetSeq (checkpointOctet (selMk w) (selGd w))
  let t := placeSymbol { s with state := S, nsel := n } (w.getLsbD 0 || (w.getLsbD 3 && o.getD 7 false))
  if w.getLsbD 0 then { t with win := 0x4D#8, winLen := 8#4 }
  else if w.getLsbD 3 then
    { t with acc := List.replicate (targetBits ((targetFrames S n).getD 0) - 8) false ++ o.take 7 }
  else if S = .hunting then t
  else { t with acc := [] }

/-- Place an opcode-table word: a symbol of format `SYM` is offered, a selector of format `SEL` is made the selector of the
next step; a word the decoder refuses can be placed nowhere. -/
def placeTableWord (s : State) (nbits w : Nat) : State :=
  if (decodeTableWord nbits w).isNone then s
  else if nbits = 8 then placeSelector s (BitVec.ofNat 8 w)
  else placeSymbol s (w == 1)

end Sys2Proof.Machine
end

