-- ==== Sys2Proof/Machine/Ops.lean ====
section
/-! DEFINITION. The primitives of the three sub-blocks (`BWM.observe`, `FA.advance`, `FA.clear`, `RQ.enqueue_all`, `RQ.pop`,
`RQ.clear`), the writes of the control registers, the emission of events, the taking of a fault and the way out of it. -/

namespace Sys2Proof.Machine

/-- `STATE <- S`. -/
def State.setState (s : State) (S : AlignState) : State := { s with state := S }

/-- `n <- v`. -/
def State.setN (s : State) (n : NSel) : State := { s with nsel := n }

/-- R14 `emit E`: append E to the step's ordered event list. -/
def State.emit (s : State) (e : Event) : State := { s with events := s.events ++ [e] }

/-- R100 to R102 `BWM.observe(bit) -> matched`: the window update, then the comparison of the updated window with the
marker. -/
def State.observe (s : State) (b : Bit) : State × Bit :=
  ({ s with win := winNext b s, winLen := winLenNext s }, winNext b s == Config.marker)

/-- R110 `FA.advance(target_frames, bit) -> (frames_reached, trailing_octet)`: append the bit; at exactly `T*256` bits
report the trailing octet. A full buffer raises `ACC_OVERFLOW` and appends nothing (R115). -/
def State.faAdvance (s : State) (T : Nat) (b : Bit) : Except FaultCause (State × Nat × Option BitSeq) :=
  if Config.accCap ≤ s.accLen then .error .accOverflow
  else
    let acc' := s.acc ++ [b]
    if acc'.length = targetBits T then .ok ({ s with acc := acc' }, T, some (trailingOctet acc'))
    else .ok ({ s with acc := acc' }, 0, none)

/-- R111 `FA.clear`: `ACC_LEN <- 0`. -/
def State.faClear (s : State) : State := { s with acc := [] }

/-- R120 `RQ.enqueue_all(bits)`: the queue's contents are replaced. -/
def State.rqEnqueueAll (s : State) (bits : BitSeq) : State := { s with rq := bits }

/-- R122 `RQ.pop() -> bit`: the head, removed from the queue; with an empty queue there is nothing to pop. -/
def State.rqPop (s : State) : Option (Bit × State) :=
  match s.rq with
  | [] => none
  | b :: q => some (b, { s with rq := q })

/-- R123 `RQ.clear`: `RQ_LEN <- 0`. -/
def State.rqClear (s : State) : State := { s with rq := [] }

/-- The state the state logic runs in, once the bit of the step has been taken: the input has advanced and in a `REPLAY`
step the head of the queue is popped (R122, R172). -/
def takeBit (s : State) : State :=
  match (nextCycle s).rqPop with
  | none => nextCycle s
  | some (_, t) => t

/-- R190 `raise Fault(code)` in a step begun in s: `FAULT` and `FAULT_CODE` are written, every other register keeps the
value it had before the step, the pop of a `REPLAY` step included, and no event is emitted. -/
def raiseFault (s : State) (c : FaultCause) : State :=
  { nextCycle s with fault := true, faultCode := c.code }

/-- R200: at an edge with `rst` = 1 every register takes its reset value, no step is performed and no event emitted. It is
also the only way out of the fault state (R192). -/
def resetCycle (s : State) : State := { State.reset with supply := nextSupply s }

end Sys2Proof.Machine
end

