-- ==== Sys2Proof/Machine/Flags.lean ====
section
/-! DEFINITION. The four conditions computed in a step and the selector made of them (R35, R74, R75). They are not stored. -/

namespace Sys2Proof.Machine

/-- R35: the conditions of one step. -/
structure Conds where
  of ::
  /-- checkpoint reached -/
  cp : Bit
  /-- trailing octet equals the marker -/
  mk : Bit
  /-- guard bit of the trailing octet is 1 -/
  gd : Bit
  /-- window equals the marker -/
  hit : Bit
  deriving DecidableEq, Repr

/-- All conditions 0. -/
def Conds.zero : Conds := ⟨false, false, false, false⟩

/-- R110, R35: `MK` of a trailing octet. -/
def markerTest (o : BitSeq) : Bit := octetVal o == Config.marker.toNat

/-- R110, R35: `GD` of a trailing octet, `o[1] == 1`. -/
def guardTest (o : BitSeq) : Bit := o.getD Config.guardBitIndex (!Config.guardBitValue) == Config.guardBitValue

/-- R35, R75: the conditions of the step that processes b. In `HUNTING` only `HIT` is computed, in an illegal pair nothing,
else the accumulator's. A step that finds the buffer full reaches no checkpoint (notes/assumptions/9.md). -/
def conds (s : State) (b : Bit) : Conds :=
  match targetFrames s.state s.nsel with
  | none => ⟨false, false, false, (s.observe b).2⟩
  | some T =>
    if illegalPair s.state s.nsel then Conds.zero
    else match s.faAdvance T b with
      | .ok (_, _, some o) => ⟨true, markerTest o, guardTest o, false⟩
      | .ok (_, _, none) => Conds.zero
      | .error _ => Conds.zero

/-- R74, R75: the selector of the step that processes b. -/
def selector (s : State) (b : Bit) : BitVec 8 :=
  selWord s.state.code s.nsel.code (conds s b).cp (conds s b).mk (conds s b).gd (conds s b).hit

end Sys2Proof.Machine
end

