-- ==== Sys2Proof/Machine/Arm.lean ====
section
/-! DEFINITION. What every arm shares: an arm runs in the step whose selector names it, on the state once the bit is taken,
and its writes take effect together or, on a fault, not at all (R55, R189, R190). -/

namespace Sys2Proof.Machine

/-- The outcomes of `exec`. -/
abbrev Out := Host.Outcome State Fault Refusal

/-- R55, R190: all the writes of a step at once, or the fault alone. -/
def commit (s : State) (r : Except FaultCause State) : State :=
  match r with
  | .ok t => t
  | .error c => raiseFault s c

/-- Run the arm i in the step of s: the bit of the step is taken (R170), the step's selector must be the word of i, a
well-formed arm (R75, R80, R83), and `body` is the arm's action on that bit (notes/assumptions/5.md). -/
def runArm (i : Instr) (body : Bit → State → Except FaultCause State) (s : State) : Out :=
  match nextBit s with
  | none => .refused .noBit
  | some b =>
    if i.wellFormed = true ∧ encode i = .sel (selector s b) then .next (commit s (body b (takeBit s)))
    else .refused .notSelected

/-- The append of `FA.advance` (R110), then the arm's own action on the state with the bit appended. -/
def afterAdvance (T : Nat) (b : Bit) (act : State → State) (s : State) : Except FaultCause State :=
  match s.faAdvance T b with
  | .ok (t, _, _) => .ok (act t)
  | .error c => .error c

end Sys2Proof.Machine
end

