-- ==== Sys2Proof/Machine/Hunting.lean ====
section
/-! DEFINITION. The arms of `HUNTING` (R131, R132). Both come after the window update of `BWM.observe`. -/

namespace Sys2Proof.Machine

/-- `H_MISS` (R131): nothing beyond the window update. -/
def execHMiss (n : NSel) (s : State) : Out :=
  runArm (.hMiss n) (fun b t => .ok (t.observe b).1) s

/-- `H_HIT` (R132): to `VERIFYING` with n = 1 and a cleared buffer; the queue is not touched. -/
def execHHit (n : NSel) (s : State) : Out :=
  runArm (.hHit n) (fun b t =>
    .ok ((((t.observe b).1.setState .verifying).setN .n1).faClear.emit (.stateChanged .verifying))) s

end Sys2Proof.Machine
end

