-- ==== Sys2Proof/Machine/Locked.lean ====
section
/-! DEFINITION. The arms of `LOCKED` (R150 to R152); their target is 2 whatever n is. -/

namespace Sys2Proof.Machine

/-- `L_WAIT` (R150): only the append. -/
def execLWait (n : NSel) (s : State) : Out :=
  runArm (.lWait n) (fun b t => afterAdvance Config.lockedTarget b id t) s

/-- `L_MARK_OK` (R151): the payload of 504 bits and a cleared buffer; n, `STATE` and the queue are untouched. -/
def execLMarkOk (n : NSel) (gd : Bit) (s : State) : Out :=
  runArm (.lMarkOk n gd) (fun b t => afterAdvance Config.lockedTarget b (fun u =>
    (u.emit (.payloadRecovered (faPayload Config.lockedTarget u))).faClear) t) s

/-- `L_MARK_FAIL` (R152): to `LOSS_CHECK` with n = 4; the buffer is deliberately kept (R210). -/
def execLMarkFail (n : NSel) (gd : Bit) (s : State) : Out :=
  runArm (.lMarkFail n gd) (fun b t => afterAdvance Config.lockedTarget b (fun u =>
    ((u.setState .lossCheck).setN .n4).emit (.stateChanged .lossCheck)) t) s

end Sys2Proof.Machine
end

