-- ==== Sys2Proof/Machine/LossCheck.lean ====
section
/-! DEFINITION. The arms of `LOSS_CHECK` (R153 to R158). -/

namespace Sys2Proof.Machine

/-- `C_WAIT` (R153): only the append. -/
def execCWait (n : NSel) (s : State) : Out :=
  runArm (.cWait n) (fun b t => afterAdvance n.val b id t) s

/-- The action R154 and R155 share: the payload of the target, a cleared buffer, n = 1, and to `LOCKED`; the queue is left
untouched. -/
def recoverLock (T : Nat) (u : State) : State :=
  (((u.emit (.payloadRecovered (faPayload T u))).faClear.setN .n1).setState .locked).emit (.stateChanged .locked)

/-- `C4_MARK_OK` (R154): recovered at n = 4, a payload of 1016 bits. -/
def execC4MarkOk (gd : Bit) (s : State) : Out :=
  runArm (.c4MarkOk gd) (fun b t => afterAdvance 4 b (recoverLock 4) t) s

/-- `C4_MARK_FAIL` (R156): n = 6, and the buffer is kept. -/
def execC4MarkFail (gd : Bit) (s : State) : Out :=
  runArm (.c4MarkFail gd) (fun b t => afterAdvance 4 b (fun u => u.setN .n6) t) s

/-- `C6_MARK_OK` (R155): recovered at n = 6, a payload of 1528 bits. -/
def execC6MarkOk (gd : Bit) (s : State) : Out :=
  runArm (.c6MarkOk gd) (fun b t => afterAdvance 6 b (recoverLock 6) t) s

/-- `C6_MARK_FAIL` (R157): alignment lost; both stores are cleared and nothing is replayed. -/
def execC6MarkFail (gd : Bit) (s : State) : Out :=
  runArm (.c6MarkFail gd) (fun b t => afterAdvance 6 b (fun u =>
    ((u.faClear.rqClear.setN .n1).setState .hunting).emit (.stateChanged .hunting)) t) s

/-- `ILL_CN` (R158): `raise Fault(ILL_CN)`; nothing is appended. -/
def execIllCn (n : NSel) (x : BitVec 4) (s : State) : Out :=
  runArm (.illCn n x) (fun _ _ => .error .illCn) s

end Sys2Proof.Machine
end

