-- ==== Sys2Proof/Machine/Verifying.lean ====
section
/-! DEFINITION. The arms of `VERIFYING` (R133 to R138). -/

namespace Sys2Proof.Machine

/-- `V_WAIT` (R133): only the append. -/
def execVWait (n : NSel) (s : State) : Out :=
  runArm (.vWait n) (fun b t => afterAdvance n.val b id t) s

/-- `V1_GUARD_OK` (R134): n = 2, and the buffer is kept. -/
def execV1GuardOk (mk : Bit) (s : State) : Out :=
  runArm (.v1GuardOk mk) (fun b t => afterAdvance 1 b (fun u => u.setN .n2) t) s

/-- `V1_GUARD_FAIL` (R135): the 256-bit buffer replaces the queue, and back to `HUNTING`. -/
def execV1GuardFail (mk : Bit) (s : State) : Out :=
  runArm (.v1GuardFail mk) (fun b t => afterAdvance 1 b (fun u =>
    (((u.rqEnqueueAll (faSnapshot u)).faClear.setN .n1).setState .hunting).emit (.stateChanged .hunting)) t) s

/-- `V2_MARK_OK` (R136): the payload of 504 bits, both stores cleared, and to `LOCKED`. -/
def execV2MarkOk (gd : Bit) (s : State) : Out :=
  runArm (.v2MarkOk gd) (fun b t => afterAdvance 2 b (fun u =>
    ((((u.setN .n1).emit (.payloadRecovered (faPayload 2 u))).faClear.rqClear).setState .locked).emit
      (.stateChanged .locked)) t) s

/-- `V2_MARK_FAIL` (R137): the 512-bit buffer replaces the queue, and back to `HUNTING`. -/
def execV2MarkFail (gd : Bit) (s : State) : Out :=
  runArm (.v2MarkFail gd) (fun b t => afterAdvance 2 b (fun u =>
    ((((u.setN .n1).rqEnqueueAll (faSnapshot u)).faClear).setState .hunting).emit (.stateChanged .hunting)) t) s

/-- `ILL_VN` (R138): `raise Fault(ILL_VN)`; nothing is appended. -/
def execIllVn (n : NSel) (x : BitVec 4) (s : State) : Out :=
  runArm (.illVn n x) (fun _ _ => .error .illVn) s

end Sys2Proof.Machine
end

