-- ==== Sys2Proof/Machine/Symbols.lean ====
section
/-! DEFINITION. The state logic applied to one bit (R130) and the two input symbols, whose meaning it is (R171, R172). -/

namespace Sys2Proof.Machine

/-- R130 `StateLogic(b)`: the arm is chosen by (`STATE`, n) and the conditions of the step, an illegal pair before
anything else (R189). It does not look at where the bit came from (R40). -/
def stateLogic (b : Bit) (s : State) : Out :=
  let c := conds s b
  match s.state, s.nsel with
  | .hunting, n => if c.hit then execHHit n s else execHMiss n s
  | .verifying, .n1 =>
    if !c.cp then execVWait .n1 s else if c.gd then execV1GuardOk c.mk s else execV1GuardFail c.mk s
  | .verifying, .n2 =>
    if !c.cp then execVWait .n2 s else if c.mk then execV2MarkOk c.gd s else execV2MarkFail c.gd s
  | .verifying, .n4 => execIllVn .n4 0#4 s
  | .verifying, .n6 => execIllVn .n6 0#4 s
  | .locked, n =>
    if !c.cp then execLWait n s else if c.mk then execLMarkOk n c.gd s else execLMarkFail n c.gd s
  | .lossCheck, .n1 => execIllCn .n1 0#4 s
  | .lossCheck, .n2 => execIllCn .n2 0#4 s
  | .lossCheck, .n4 =>
    if !c.cp then execCWait .n4 s else if c.mk then execC4MarkOk c.gd s else execC4MarkFail c.gd s
  | .lossCheck, .n6 =>
    if !c.cp then execCWait .n6 s else if c.mk then execC6MarkOk c.gd s else execC6MarkFail c.gd s

/-- The state logic on the symbol b, in the step that processes it. -/
def symbolStep (b : Bit) (s : State) : Out :=
  match nextBit s with
  | none => .refused .noBit
  | some c => if c = b then stateLogic b s else .refused .otherSymbol

/-- `BIT0` (R171, R172): `StateLogic(0)`. -/
def execBit0 (s : State) : Out := symbolStep false s

/-- `BIT1` (R171, R172): `StateLogic(1)`. -/
def execBit1 (s : State) : Out := symbolStep true s

end Sys2Proof.Machine
end

