-- ==== Sys2Proof/Machine/Dispatch.lean ====
section
/-! DEFINITION. One arm per instruction of the opcode table. -/

namespace Sys2Proof.Machine

def exec (i : Instr) (s : State) : Host.Outcome State Fault Refusal :=
  match i with
  | .hMiss n => Sys2Proof.Machine.execHMiss n s
  | .hHit n => Sys2Proof.Machine.execHHit n s
  | .vWait n => Sys2Proof.Machine.execVWait n s
  | .v1GuardOk mk => Sys2Proof.Machine.execV1GuardOk mk s
  | .v1GuardFail mk => Sys2Proof.Machine.execV1GuardFail mk s
  | .v2MarkOk gd => Sys2Proof.Machine.execV2MarkOk gd s
  | .v2MarkFail gd => Sys2Proof.Machine.execV2MarkFail gd s
  | .illVn n x => Sys2Proof.Machine.execIllVn n x s
  | .lWait n => Sys2Proof.Machine.execLWait n s
  | .lMarkOk n gd => Sys2Proof.Machine.execLMarkOk n gd s
  | .lMarkFail n gd => Sys2Proof.Machine.execLMarkFail n gd s
  | .illCn n x => Sys2Proof.Machine.execIllCn n x s
  | .cWait n => Sys2Proof.Machine.execCWait n s
  | .c4MarkOk gd => Sys2Proof.Machine.execC4MarkOk gd s
  | .c4MarkFail gd => Sys2Proof.Machine.execC4MarkFail gd s
  | .c6MarkOk gd => Sys2Proof.Machine.execC6MarkOk gd s
  | .c6MarkFail gd => Sys2Proof.Machine.execC6MarkFail gd s
  | .bit0 => Sys2Proof.Machine.execBit0 s
  | .bit1 => Sys2Proof.Machine.execBit1 s

end Sys2Proof.Machine
end

