-- ==== Sys2Proof/Machine/Step.lean ====
section
/-! DEFINITION. One clock edge (R174): the step selection of R170 with reset (R200), and the instruction it runs. -/

namespace Sys2Proof.Machine

/-- One edge. With a bit to process, the symbol fetched is decoded and run; without one, reset restores the registers, and a
halted or idle block keeps them (R173, R191). -/
def step (s : State) : Host.Outcome State Fault Refusal :=
  match fetchSymbol s with
  | some w => exec (decodeSym w) s
  | none =>
    match stepKind s with
    | .reset => .next (resetCycle s)
    | _ => .next (nextCycle s)

/-- s with the opcode-table word placed where the next step meets it (notes/assumptions/10.md). -/
def State.withFetchWord (s : State) (nbits w : Nat) : State := placeTableWord s nbits w

end Sys2Proof.Machine
end

