-- ==== Sys2Proof/Machine/Ports.lean ====
section
/-! DEFINITION. The output ports (R77, R174 to R176): which levels a cycle may show. Bits the spec leaves unspecified are not
constrained (notes/assumptions/15.md). -/

namespace Sys2Proof.Machine

/-- R174: the levels of the output ports during one cycle. -/
structure PortOut where
  bitReady : Bit
  stateOut : BitVec 2
  evtStateChanged : Bit
  evtNewState : BitVec 2
  evtPayloadValid : Bit
  evtPayloadLen : BitVec 11
  /-- bit i is payload bit i in arrival order -/
  evtPayload : BitVec 1528
  fault : Bit
  faultCode : BitVec 3
  deriving DecidableEq, Repr

/-- R176: the events of the step whose closing edge ends this cycle. -/
def cycleEvents (s : State) : List Event :=
  match step s with
  | .next t => t.events
  | .fault _ => []
  | .refused _ => []

/-- The argument of the `StateChanged` among the events, if there is one; no step emits two (R189). -/
def newStateOf (evs : List Event) : Option AlignState :=
  evs.findSome? (fun e => match e with
    | .stateChanged S => some S
    | .payloadRecovered _ => none)

/-- The argument of the `PayloadRecovered` among the events, if there is one; no step emits two (R189). -/
def payloadOf (evs : List Event) : Option BitSeq :=
  evs.findSome? (fun e => match e with
    | .stateChanged _ => none
    | .payloadRecovered q => some q)

/-- R77, R174: p is what the output ports may show during the cycle that begins in s. -/
structure Shows (s : State) (p : PortOut) : Prop where
  ready : p.bitReady = bitReadyPort s
  state : p.stateOut = s.state.code
  fault : p.fault = s.fault
  code : p.faultCode = s.faultCode
  changed : p.evtStateChanged = (newStateOf (cycleEvents s)).isSome
  newState : ∀ S, newStateOf (cycleEvents s) = some S → p.evtNewState = S.code
  valid : p.evtPayloadValid = (payloadOf (cycleEvents s)).isSome
  length : ∀ q, payloadOf (cycleEvents s) = some q → p.evtPayloadLen.toNat = q.length
  payload : ∀ q, payloadOf (cycleEvents s) = some q → ∀ i, i < q.length → q[i]? = some (p.evtPayload.getLsbD i)

end Sys2Proof.Machine
end

