-- ==== Sys2Proof/Machine/Process.lean ====
section
/-! DEFINITION. Many steps and their events: the source's `process_bit` (R180) as one `ACCEPT` step and one drain loop, not a
recursion (R205). -/

namespace Sys2Proof.Machine

/-- k clock edges from s: the events they emit, in step order, and the state they end in. -/
def runFor : Nat → State → List Event × State
  | 0, s => ([], s)
  | k + 1, s =>
    match step s with
    | .next t => (t.events ++ (runFor k t).1, (runFor k t).2)
    | .fault _ => ([], s)
    | .refused _ => ([], s)

/-- The drain loop: edges are taken while the replay queue holds bits, at most k of them. -/
def drain : Nat → State → List Event × State
  | 0, s => ([], s)
  | k + 1, s =>
    if s.rq = [] then ([], s)
    else
      match step s with
      | .next t => (t.events ++ (drain k t).1, (drain k t).2)
      | .fault _ => ([], s)
      | .refused _ => ([], s)

/-- R180 `process_bit(b)`: the bit is offered to a block that is ready for it and processed, then the queue is drained. Its
events are those of the steps, concatenated. The loop is bounded by R206 (notes/assumptions/17.md). -/
def processBit (b : Bit) (s : State) : List Event × State :=
  match step { s with supply := [PortIn.offer b] } with
  | .next t => (t.events ++ (drain Config.drainBound t).1, (drain Config.drainBound t).2)
  | .fault _ => ([], s)
  | .refused _ => ([], s)

end Sys2Proof.Machine
end

