-- ==== Sys2Proof/Safety.lean ====
section
/-! DEFINITION. What counts as a state of the hardware, as a safe run and as a reachable state, in the terms the statements
use. -/

namespace Sys2Proof.Machine

/-- The two bit stores are within their capacities (R9, R42). They hold no bit at or above their length, so equal stores are
equal data. -/
abbrev Memory.wf (s : State) : Prop := s.accLen ≤ Config.accCap ∧ s.rqLen ≤ Config.rqCap

/-- R24, R25: `WIN_LEN` is 0 to 8 and the unused positions of `WIN` hold 0. -/
abbrev windowWf (s : State) : Prop := s.winLen.toNat ≤ 8 ∧ s.win.toNat < 2 ^ s.winLen.toNat

/-- R191: "a model should treat it as having gone wrong": a run is safe while no fault has been raised. -/
abbrev safe (s : State) : Prop := s.fault = false

/-- Every register of R20 has the same value in s and t. -/
abbrev sameRegisters (s t : State) : Prop :=
  s.state = t.state ∧ s.nsel = t.nsel ∧ s.win = t.win ∧ s.winLen = t.winLen ∧ s.acc = t.acc ∧ s.rq = t.rq ∧
    s.fault = t.fault ∧ s.faultCode = t.faultCode

/-- R50: the eight bits of the marker in arrival order, "1, 0, 0, 1, 1, 0, 1, 1". -/
def markerSeq : BitSeq := [true, false, false, true, true, false, true, true]

/-- The window holds the marker's 8 bits. -/
abbrev windowIsMarker (s : State) : Prop := s.win = Config.marker ∧ s.winLen = 8#4

/-- The table of R41, with `FAULT` = 0. -/
abbrev reachableTable (s : State) : Prop :=
  s.fault = false ∧
  match s.state, s.nsel with
  | .hunting, .n1 => s.accLen = 0 ∧ s.rqLen ≤ 512
  | .verifying, .n1 => s.accLen ≤ 255 ∧ (s.rqLen = 0 ∨ s.accLen + s.rqLen ≤ 505) ∧ windowIsMarker s
  | .verifying, .n2 =>
    (256 ≤ s.accLen ∧ s.accLen ≤ 511) ∧ (s.rqLen = 0 ∨ s.accLen + s.rqLen ≤ 505) ∧ windowIsMarker s
  | .locked, .n1 => s.accLen ≤ 511 ∧ s.rqLen = 0 ∧ windowIsMarker s
  | .lossCheck, .n4 => (512 ≤ s.accLen ∧ s.accLen ≤ 1023) ∧ s.rqLen = 0 ∧ windowIsMarker s
  | .lossCheck, .n6 => (1024 ≤ s.accLen ∧ s.accLen ≤ 1535) ∧ s.rqLen = 0 ∧ windowIsMarker s
  | .hunting, .n2 => False
  | .hunting, .n4 => False
  | .hunting, .n6 => False
  | .verifying, .n4 => False
  | .verifying, .n6 => False
  | .locked, .n2 => False
  | .locked, .n4 => False
  | .locked, .n6 => False
  | .lossCheck, .n1 => False
  | .lossCheck, .n2 => False

/-- R46 while a 512-bit queue begins to drain: after k of its bits, k at most 6, the window is the marker shifted by k, so its
older bits are the marker's last `8-k` bits. -/
abbrev windowShifted (s : State) : Prop :=
  505 < s.rqLen → s.winLen = 8#4 ∧ s.win >>> (512 - s.rqLen) = Config.marker &&& (0xFF#8 >>> (512 - s.rqLen))

/-- R125: a 512-bit buffer passed its guard test, "so q[249] = 1": in the buffer, then in the queue, where q[249] stands at
`RQ_LEN - 263`, then in the window until six more bits have been observed. -/
abbrev guardKept (s : State) : Prop :=
  (s.state = .verifying → s.nsel = .n2 → s.accBit 249 = some true) ∧
  (s.state = .hunting → 263 ≤ s.rqLen → s.rqBit (s.rqLen - 263) = some true) ∧
  (s.state = .hunting → 257 ≤ s.rqLen → s.rqLen ≤ 262 → s.win.getLsbD (262 - s.rqLen) = true)

/-- The invariant of the reachable states: the table of R41, with what makes it inductive, the zeros above a short window
(R24), a cleared fault code, R46 in `HUNTING`, and the guard bit of R125 that bounds the drain (R206). -/
abbrev reachableInv (s : State) : Prop :=
  reachableTable s ∧ s.faultCode = 0b000#3 ∧ windowWf s ∧ (s.state = .hunting → windowShifted s) ∧ guardKept s

/-- The states of some run from reset under some input. -/
def reachable (s : State) : Prop :=
  ∃ (input : List PortIn) (k : Nat), Sys2Proof.core.run k { State.reset with supply := input } = .next s

end Sys2Proof.Machine
end

