-- ==== Sys2Proof/Certificates/Slice0/Obligations.lean ====
section
/-! DEFINITION. The statements for the provers. In the state a step leaves, `supply := nextSupply s` says how the input
advances (O8) and `rq := s.rq.tail` that the head of the queue is popped in a `REPLAY` step, the queue of an `ACCEPT` step
being empty. -/

open Sys2Proof Sys2Proof.Machine

/-! ## Reset, step selection and the run of an instruction -/

/-- R43. No bit of `ACC` or `RQ` can be read. -/
def Obligations.ResetLeavesSpecifiedValues : Prop :=
  State.reset.state = .hunting ∧ State.reset.nsel = .n1 ∧ State.reset.win = 0x00#8 ∧ State.reset.winLen = 0#4 ∧
    State.reset.accLen = 0 ∧ State.reset.rqLen = 0 ∧ State.reset.fault = false ∧ State.reset.faultCode = 0#3 ∧
    State.reset.events = [] ∧ ∀ a, State.reset.accBit a = none ∧ State.reset.rqBit a = none

/-- R200: reset from any state; no step is performed, an offered bit stays offered, and `bit_ready` is 0. -/
def Obligations.ResetRestoresAnyState : Prop :=
  ∀ s : State, s.pins.rst = true →
    step s = .next { State.reset with supply := holdOffer s.supply } ∧ bitReadyPort s = false

/-- R191, R192: a halted block keeps every register and emits nothing; reset, and nothing else, leaves the fault state. -/
def Obligations.HaltedUntilReset : Prop :=
  ∀ s : State, s.fault = true →
    (s.pins.rst = false → bitReady s = false ∧ ∃ t, step s = .next t ∧ sameRegisters t s ∧ t.events = []) ∧
    (s.pins.rst = true → ∃ t, step s = .next t ∧ sameRegisters t State.reset ∧ t.events = [])

/-- R170, R173: the priority of the step's sources, and that a halted or idle cycle changes no register and emits nothing. -/
def Obligations.StepSelectionPriority : Prop :=
  ∀ s : State, s.pins.rst = false →
    (s.fault = true → ∃ t, step s = .next t ∧ sameRegisters t s ∧ t.events = []) ∧
    (s.fault = false → ∀ b q, s.rq = b :: q → step s = exec (if b then .bit1 else .bit0) s) ∧
    (s.fault = false → s.rq = [] → s.pins.bitValid = true →
      step s = exec (if s.pins.bitIn then .bit1 else .bit0) s) ∧
    (s.fault = false → s.rq = [] → s.pins.bitValid = false →
      ∃ t, step s = .next t ∧ sameRegisters t s ∧ t.events = [])

/-- A step runs the decoded instruction: the fetched symbol's. Without one it only resets the registers or keeps them. -/
def Obligations.StepRunsDecodedSymbol : Prop :=
  ∀ s : State,
    (∀ w i, fetchSymbol s = some w → decode (.sym w) = .ok i → i.wellFormed = true → step s = exec i s) ∧
    (fetchSymbol s = none →
      step s = .next (if s.pins.rst then { State.reset with supply := nextSupply s }
        else { s with supply := nextSupply s, events := [] }))

/-- R75, R80, R81, R130: the selector of every step decodes to one well-formed arm, the step is that arm run, and it answers
a next state. -/
def Obligations.StepRunsSelectedArm : Prop :=
  ∀ (s : State) (b : Bit), nextBit s = some b →
    ∃ i t, decode (.sel (selector s b)) = .ok i ∧ i.wellFormed = true ∧ encode i = .sel (selector s b) ∧
      step s = exec i s ∧ exec i s = .next t

/-- R171, R172: `BIT0` and `BIT1` complete in every step that processes them, and are the arm the state logic takes. -/
def Obligations.SymbolsCompleteAsStateLogic : Prop :=
  ∀ s : State,
    (nextBit s = some false → ∃ i t, decode (.sel (selector s false)) = .ok i ∧
      exec .bit0 s = .next t ∧ exec i s = .next t) ∧
    (nextBit s = some true → ∃ i t, decode (.sel (selector s true)) = .ok i ∧
      exec .bit1 s = .next t ∧ exec i s = .next t)

/-- R60, R171, R172, R177, R204: a bit offered in a `REPLAY` step is still offered in the next cycle, an `ACCEPT` step consumes
it, and every instruction advances the input so. -/
def Obligations.OfferIsTakenOnlyByAccept : Prop :=
  ∀ (i : Instr) (s t : State), exec i s = .next t →
    (s.rq ≠ [] → s.pins.bitValid = true → t.pins.bitValid = true ∧ t.pins.bitIn = s.pins.bitIn) ∧
    (s.rq ≠ [] → s.pins.bitValid = false → t.supply = s.supply.tail) ∧
    (s.rq = [] → s.pins.bitValid = true ∧ t.supply = s.supply.tail)

/-- What the step does not run is refused: everything in a cycle without a bit, the arms but the one the step's selector
decodes to, and the symbol that is not the step's bit (the model's choice, notes/assumptions/5.md). -/
def Obligations.ExecRefusesWhatTheStepDoesNotRun : Prop :=
  ∀ (i : Instr) (s : State),
    (nextBit s = none → exec i s = .refused .noBit) ∧
    (∀ b, nextBit s = some b → i ≠ .bit0 → i ≠ .bit1 → decode (.sel (selector s b)) ≠ .ok i →
      exec i s = .refused .notSelected) ∧
    (∀ b, nextBit s = some b → exec (if b then .bit0 else .bit1) s = .refused .otherSymbol)

/-- R40, R63: what a step does to the registers and emits does not depend on where its bit came from. A fault is left out, as
it leaves a replayed bit in the queue (R190). -/
def Obligations.ReplayedAndLiveBitsAreTreatedAlike : Prop :=
  ∀ (s u s' u' : State) (b : Bit), s.pins.rst = false → u.pins.rst = false → s.fault = false →
    sameRegisters { s with rq := [] } u → s.rq = [b] → u.pins.bitValid = true → u.pins.bitIn = b →
    step s = .next s' → step u = .next u' → s'.fault = false →
    sameRegisters s' u' ∧ s'.events = u'.events

/-- R175, R170: `bit_ready` is 1 exactly when the queue is empty and there is no fault, and exactly then an offered bit is
accepted. -/
def Obligations.ReadyExactlyWhenBitIsAccepted : Prop :=
  ∀ s : State, (bitReady s = true ↔ s.rqLen = 0 ∧ s.fault = false) ∧
    (s.pins.rst = false → s.pins.bitValid = true → (bitReady s = true ↔ stepKind s = .accept s.pins.bitIn))

/-! ## The arms: each row's word, and the whole next state -/

/-- R131. -/
def Obligations.HMissOnlyUpdatesWindow : Prop :=
  ∀ (s : State) (b : Bit), nextBit s = some b → s.state = .hunting → winNext b s ≠ 0x9B#8 →
    selector s b &&& 0xCF#8 = 0x00#8 ∧
    exec (.hMiss s.nsel) s = .next { s with
      supply := nextSupply s, events := [], rq := s.rq.tail, win := winNext b s, winLen := winLenNext s }

/-- R132. -/
def Obligations.HHitEntersVerifying : Prop :=
  ∀ (s : State) (b : Bit), nextBit s = some b → s.state = .hunting → winNext b s = 0x9B#8 →
    selector s b &&& 0xCF#8 = 0x01#8 ∧
    exec (.hHit s.nsel) s = .next { s with
      supply := nextSupply s, events := [.stateChanged .verifying], rq := s.rq.tail, win := 0x9B#8,
      winLen := winLenNext s, state := .verifying, nsel := .n1, acc := [] }

/-- R133, with the fault of `FA.advance`. -/
def Obligations.VWaitAppendsOneBit : Prop :=
  ∀ (s : State) (b : Bit), nextBit s = some b → s.state = .verifying → (s.nsel = .n1 ∨ s.nsel = .n2) →
    (s.accLen < 1536 → s.accLen + 1 ≠ s.nsel.val * 256 →
      selector s b &&& 0xEF#8 = 0x40#8 ∧
      exec (.vWait s.nsel) s = .next { s with
        supply := nextSupply s, events := [], rq := s.rq.tail, acc := s.acc ++ [b] }) ∧
    (s.accLen = 1536 →
      exec (.vWait s.nsel) s = .next { s with
        supply := nextSupply s, events := [], fault := true, faultCode := 3#3 })

/-- R134: index 249 is element 1 of the trailing octet at 248 to 255. -/
def Obligations.V1GuardOkKeepsBuffer : Prop :=
  ∀ (s : State) (b : Bit), nextBit s = some b → s.state = .verifying → s.nsel = .n1 → s.accLen = 255 →
    s.accBit 249 = some true →
    selector s b &&& 0xFB#8 = 0x4A#8 ∧
    exec (.v1GuardOk false) s = .next { s with
      supply := nextSupply s, events := [], rq := s.rq.tail, acc := s.acc ++ [b], nsel := .n2 }

/-- R135: the marker is one of the octets that take this arm. -/
def Obligations.V1GuardFailReplaysBuffer : Prop :=
  ∀ (s : State) (b : Bit), nextBit s = some b → s.state = .verifying → s.nsel = .n1 → s.accLen = 255 →
    s.accBit 249 = some false →
    selector s b &&& 0xFB#8 = 0x48#8 ∧
    exec (.v1GuardFail (decide ((s.acc ++ [b]).drop 248 = markerSeq))) s = .next { s with
      supply := nextSupply s, events := [.stateChanged .hunting], rq := s.acc ++ [b], acc := [], nsel := .n1,
      state := .hunting }

/-- R136. -/
def Obligations.V2MarkOkLocks : Prop :=
  ∀ (s : State) (b : Bit), nextBit s = some b → s.state = .verifying → s.nsel = .n2 → s.accLen = 511 →
    (s.acc ++ [b]).drop 504 = markerSeq →
    selector s b &&& 0xFD#8 = 0x5C#8 ∧
    exec (.v2MarkOk false) s = .next { s with
      supply := nextSupply s, events := [.payloadRecovered (s.acc.take 504), .stateChanged .locked], rq := [],
      acc := [], nsel := .n1, state := .locked }

/-- R137. -/
def Obligations.V2MarkFailReplaysBuffer : Prop :=
  ∀ (s : State) (b g : Bit), nextBit s = some b → s.state = .verifying → s.nsel = .n2 → s.accLen = 511 →
    (s.acc ++ [b]).drop 504 ≠ markerSeq → s.accBit 505 = some g →
    selector s b &&& 0xFD#8 = 0x58#8 ∧
    exec (.v2MarkFail g) s = .next { s with
      supply := nextSupply s, events := [.stateChanged .hunting], rq := s.acc ++ [b], acc := [], nsel := .n1,
      state := .hunting }

/-- R150, with the fault of `FA.advance`; n is not read. -/
def Obligations.LWaitAppendsOneBit : Prop :=
  ∀ (s : State) (b : Bit), nextBit s = some b → s.state = .locked →
    (s.accLen < 1536 → s.accLen + 1 ≠ 512 →
      selector s b &&& 0xCF#8 = 0x80#8 ∧
      exec (.lWait s.nsel) s = .next { s with
        supply := nextSupply s, events := [], rq := s.rq.tail, acc := s.acc ++ [b] }) ∧
    (s.accLen = 1536 →
      exec (.lWait s.nsel) s = .next { s with
        supply := nextSupply s, events := [], fault := true, faultCode := 3#3 })

/-- R151. -/
def Obligations.LMarkOkEmitsPayloadAndStays : Prop :=
  ∀ (s : State) (b : Bit), nextBit s = some b → s.state = .locked → s.accLen = 511 →
    (s.acc ++ [b]).drop 504 = markerSeq →
    selector s b &&& 0xCD#8 = 0x8C#8 ∧
    exec (.lMarkOk s.nsel false) s = .next { s with
      supply := nextSupply s, events := [.payloadRecovered (s.acc.take 504)], rq := s.rq.tail, acc := [] }

/-- R152: the buffer is kept. -/
def Obligations.LMarkFailEntersLossCheckWithBuffer : Prop :=
  ∀ (s : State) (b g : Bit), nextBit s = some b → s.state = .locked → s.accLen = 511 →
    (s.acc ++ [b]).drop 504 ≠ markerSeq → s.accBit 505 = some g →
    selector s b &&& 0xCD#8 = 0x88#8 ∧
    exec (.lMarkFail s.nsel g) s = .next { s with
      supply := nextSupply s, events := [.stateChanged .lossCheck], rq := s.rq.tail, acc := s.acc ++ [b],
      nsel := .n4, state := .lossCheck }

/-- R153, with the fault of `FA.advance`. -/
def Obligations.CWaitAppendsOneBit : Prop :=
  ∀ (s : State) (b : Bit), nextBit s = some b → s.state = .lossCheck → (s.nsel = .n4 ∨ s.nsel = .n6) →
    (s.accLen < 1536 → s.accLen + 1 ≠ s.nsel.val * 256 →
      selector s b &&& 0xEF#8 = 0xE0#8 ∧
      exec (.cWait s.nsel) s = .next { s with
        supply := nextSupply s, events := [], rq := s.rq.tail, acc := s.acc ++ [b] }) ∧
    (s.accLen = 1536 →
      exec (.cWait s.nsel) s = .next { s with
        supply := nextSupply s, events := [], fault := true, faultCode := 3#3 })

/-- R154. -/
def Obligations.C4MarkOkRecoversLock : Prop :=
  ∀ (s : State) (b : Bit), nextBit s = some b → s.state = .lossCheck → s.nsel = .n4 → s.accLen = 1023 →
    (s.acc ++ [b]).drop 1016 = markerSeq →
    selector s b &&& 0xFD#8 = 0xEC#8 ∧
    exec (.c4MarkOk false) s = .next { s with
      supply := nextSupply s, events := [.payloadRecovered (s.acc.take 1016), .stateChanged .locked],
      rq := s.rq.tail, acc := [], nsel := .n1, state := .locked }

/-- R155. -/
def Obligations.C6MarkOkRecoversLock : Prop :=
  ∀ (s : State) (b : Bit), nextBit s = some b → s.state = .lossCheck → s.nsel = .n6 → s.accLen = 1535 →
    (s.acc ++ [b]).drop 1528 = markerSeq →
    selector s b &&& 0xFD#8 = 0xFC#8 ∧
    exec (.c6MarkOk false) s = .next { s with
      supply := nextSupply s, events := [.payloadRecovered (s.acc.take 1528), .stateChanged .locked],
      rq := s.rq.tail, acc := [], nsel := .n1, state := .locked }

/-- R156: the buffer is kept. -/
def Obligations.C4MarkFailGivesSecondChance : Prop :=
  ∀ (s : State) (b g : Bit), nextBit s = some b → s.state = .lossCheck → s.nsel = .n4 → s.accLen = 1023 →
    (s.acc ++ [b]).drop 1016 ≠ markerSeq → s.accBit 1017 = some g →
    selector s b &&& 0xFD#8 = 0xE8#8 ∧
    exec (.c4MarkFail g) s = .next { s with
      supply := nextSupply s, events := [], rq := s.rq.tail, acc := s.acc ++ [b], nsel := .n6 }

/-- R157: nothing is replayed. -/
def Obligations.C6MarkFailDiscardsAndHunts : Prop :=
  ∀ (s : State) (b g : Bit), nextBit s = some b → s.state = .lossCheck → s.nsel = .n6 → s.accLen = 1535 →
    (s.acc ++ [b]).drop 1528 ≠ markerSeq → s.accBit 1529 = some g →
    selector s b &&& 0xFD#8 = 0xF8#8 ∧
    exec (.c6MarkFail g) s = .next { s with
      supply := nextSupply s, events := [.stateChanged .hunting], rq := [], acc := [], nsel := .n1,
      state := .hunting }

/-- R138: an illegal pair faults whatever the buffer holds, a full one too (R189). -/
def Obligations.IllVnRaisesFault : Prop :=
  ∀ (s : State) (b : Bit), nextBit s = some b → s.state = .verifying → (s.nsel = .n4 ∨ s.nsel = .n6) →
    selector s b &&& 0xE0#8 = 0x60#8 ∧
    exec (.illVn s.nsel 0#4) s = .next { s with
      supply := nextSupply s, events := [], fault := true, faultCode := 1#3 }

/-- R158. -/
def Obligations.IllCnRaisesFault : Prop :=
  ∀ (s : State) (b : Bit), nextBit s = some b → s.state = .lossCheck → (s.nsel = .n1 ∨ s.nsel = .n2) →
    selector s b &&& 0xE0#8 = 0xC0#8 ∧
    exec (.illCn s.nsel 0#4) s = .next { s with
      supply := nextSupply s, events := [], fault := true, faultCode := 2#3 }

/-! ## Faults -/

/-- R115: in a legal pair outside `HUNTING` a step that finds the buffer full changes nothing but the fault registers. -/
def Obligations.FullBufferRaisesAccOverflow : Prop :=
  ∀ (s : State) (b : Bit), nextBit s = some b → s.state ≠ .hunting → illegalPair s.state s.nsel = false →
    s.accLen = 1536 →
    step s = .next { s with supply := nextSupply s, events := [], fault := true, faultCode := 3#3 }

/-- R186, R189: a step raises a fault exactly under the three conditions, an illegal pair before a full buffer, and records
the cause. -/
def Obligations.FaultRaisedExactlyWhenListed : Prop :=
  ∀ (s t : State) (b : Bit), Memory.wf s → nextBit s = some b → step s = .next t →
    (s.state = .verifying → (s.nsel = .n4 ∨ s.nsel = .n6) → t.fault = true ∧ t.faultCode = 1#3) ∧
    (s.state = .lossCheck → (s.nsel = .n1 ∨ s.nsel = .n2) → t.fault = true ∧ t.faultCode = 2#3) ∧
    (illegalPair s.state s.nsel = false → s.state ≠ .hunting → s.accLen = 1536 →
      t.fault = true ∧ t.faultCode = 3#3) ∧
    (illegalPair s.state s.nsel = false → (s.state = .hunting ∨ s.accLen ≠ 1536) →
      t.fault = false ∧ t.faultCode = s.faultCode)

/-- R190: a faulting step leaves every register but `FAULT` and `FAULT_CODE` as it was, the queue's head too, and emits
nothing. -/
def Obligations.FaultsArePrecise : Prop :=
  ∀ s t : State, step s = .next t → s.fault = false → t.fault = true →
    sameRegisters { t with fault := s.fault, faultCode := s.faultCode } s ∧ t.events = []

/-! ## Frames -/

/-- R26, R103: no instruction run outside `HUNTING` changes the window. -/
def Obligations.WindowChangesOnlyInHunting : Prop :=
  ∀ (i : Instr) (s t : State), exec i s = .next t → s.state ≠ .hunting → t.win = s.win ∧ t.winLen = s.winLen

/-- `V_WAIT`, `L_WAIT` and `C_WAIT` (R133, R150, R153): the only bit stored is the one at `ACC_LEN`, and in the step that
faults none is. -/
def Obligations.WaitArmsFrame : Prop :=
  ∀ (n : NSel) (s t : State),
    (exec (.vWait n) s = .next t ∨ exec (.lWait n) s = .next t ∨ exec (.cWait n) s = .next t) →
    t.state = s.state ∧ t.nsel = s.nsel ∧ t.win = s.win ∧ t.winLen = s.winLen ∧ t.events = [] ∧
      (∀ a, a ≠ s.accLen → t.accBit a = s.accBit a) ∧
      (s.accLen < 1536 → t.fault = s.fault ∧ t.faultCode = s.faultCode ∧ ∀ a, t.rqBit a = s.rq.tail[a]?) ∧
      (s.accLen = 1536 → ∀ a, t.accBit a = s.accBit a ∧ t.rqBit a = s.rqBit a)

/-- `V1_GUARD_OK`, `L_MARK_FAIL` and `C4_MARK_FAIL` (R111): a checkpoint that keeps the buffer. The only bit stored is the one
at `ACC_LEN`; `STATE` changes in `L_MARK_FAIL` alone. -/
def Obligations.KeepingArmsFrame : Prop :=
  ∀ (n : NSel) (x : Bit) (s t : State),
    (exec (.v1GuardOk x) s = .next t ∨ exec (.lMarkFail n x) s = .next t ∨ exec (.c4MarkFail x) s = .next t) →
    t.win = s.win ∧ t.winLen = s.winLen ∧ t.fault = s.fault ∧ t.faultCode = s.faultCode ∧
      (∀ a, a ≠ s.accLen → t.accBit a = s.accBit a) ∧ (∀ a, t.rqBit a = s.rq.tail[a]?) ∧
      (s.state ≠ .locked → t.state = s.state)

/-- `V2_MARK_OK`, `L_MARK_OK`, `C4_MARK_OK` and `C6_MARK_OK`: the buffer is cleared; only `V2_MARK_OK` clears the queue (R123),
and only `L_MARK_OK` leaves n as it was. -/
def Obligations.PayloadArmsFrame : Prop :=
  ∀ (n : NSel) (x : Bit) (s t : State),
    (exec (.v2MarkOk x) s = .next t → ∀ a, t.rqBit a = none) ∧
    (exec (.lMarkOk n x) s = .next t → t.nsel = s.nsel ∧ t.state = s.state) ∧
    (exec (.lMarkOk n x) s = .next t ∨ exec (.c4MarkOk x) s = .next t ∨ exec (.c6MarkOk x) s = .next t →
      ∀ a, t.rqBit a = s.rq.tail[a]?) ∧
    (exec (.v2MarkOk x) s = .next t ∨ exec (.lMarkOk n x) s = .next t ∨ exec (.c4MarkOk x) s = .next t ∨
      exec (.c6MarkOk x) s = .next t →
      t.win = s.win ∧ t.winLen = s.winLen ∧ t.fault = s.fault ∧ t.faultCode = s.faultCode ∧
        ∀ a, t.accBit a = none)

/-- `V1_GUARD_FAIL`, `V2_MARK_FAIL` and `C6_MARK_FAIL`: the buffer is cleared and no flag or window bit changes; the stored
bits are the queue's, at indices below the loaded length, and `C6_MARK_FAIL` leaves none. -/
def Obligations.FailingArmsFrame : Prop :=
  ∀ (x : Bit) (s t : State),
    (exec (.v1GuardFail x) s = .next t → ∀ a, 256 ≤ a → t.rqBit a = none) ∧
    (exec (.v2MarkFail x) s = .next t → ∀ a, 512 ≤ a → t.rqBit a = none) ∧
    (exec (.v1GuardFail x) s = .next t ∨ exec (.v2MarkFail x) s = .next t →
      ∀ a, a < s.accLen → t.rqBit a = s.accBit a) ∧
    (exec (.c6MarkFail x) s = .next t → ∀ a, t.rqBit a = none) ∧
    (exec (.v1GuardFail x) s = .next t ∨ exec (.v2MarkFail x) s = .next t ∨ exec (.c6MarkFail x) s = .next t →
      t.win = s.win ∧ t.winLen = s.winLen ∧ t.fault = s.fault ∧ t.faultCode = s.faultCode ∧
        ∀ a, t.accBit a = none)

/-- `H_MISS` and `H_HIT` (R103, R131, R132): the queue loses its head only by the pop, and the fault registers stay. -/
def Obligations.HuntingArmsFrame : Prop :=
  ∀ (n : NSel) (s t : State),
    (exec (.hMiss n) s = .next t → t.state = s.state ∧ t.nsel = s.nsel ∧ t.events = [] ∧
      ∀ a, t.accBit a = s.accBit a) ∧
    (exec (.hMiss n) s = .next t ∨ exec (.hHit n) s = .next t →
      t.fault = s.fault ∧ t.faultCode = s.faultCode ∧ ∀ a, t.rqBit a = s.rq.tail[a]?)

/-- `ILL_VN` and `ILL_CN` (R190): everything but the fault registers is unchanged. -/
def Obligations.IllegalArmsFrame : Prop :=
  ∀ (n : NSel) (x : BitVec 4) (s t : State), (exec (.illVn n x) s = .next t ∨ exec (.illCn n x) s = .next t) →
    sameRegisters { t with fault := s.fault, faultCode := s.faultCode } s ∧ t.events = []

/-! ## Events and transitions -/

/-- R178: `StateChanged(S)` exactly when `STATE` changes, with S the new state; `PayloadRecovered` exactly in the four
`_MARK_OK` arms; no event at reset. -/
def Obligations.EventsExactlyWhenListed : Prop :=
  ∀ s t : State, step s = .next t →
    (s.pins.rst = true → t.events = []) ∧
    (s.pins.rst = false → ∀ S, Event.stateChanged S ∈ t.events ↔ (t.state ≠ s.state ∧ S = t.state)) ∧
    ((∃ q, Event.payloadRecovered q ∈ t.events) ↔
      ∃ b i, nextBit s = some b ∧ decode (.sel (selector s b)) = .ok i ∧
        ((∃ x, i = .v2MarkOk x) ∨ (∃ n x, i = .lMarkOk n x) ∨ (∃ x, i = .c4MarkOk x) ∨ ∃ x, i = .c6MarkOk x))

/-- R189: at most one event of each kind, the payload first (the spec's decision D15); a faulting step emits none. -/
def Obligations.PayloadEventComesFirst : Prop :=
  ∀ s t : State, step s = .next t →
    (t.events = [] ∨ (∃ S, t.events = [.stateChanged S]) ∨ (∃ q, t.events = [.payloadRecovered q]) ∨
      ∃ q S, t.events = [.payloadRecovered q, .stateChanged S]) ∧
    (t.fault = true → t.events = [])

/-- R113: a payload is the buffer less its trailing marker, of 504, 1016 or 1528 bits. -/
def Obligations.PayloadIsBufferLessMarker : Prop :=
  ∀ (s t : State) (q : BitSeq), step s = .next t → Event.payloadRecovered q ∈ t.events →
    (q.length = 504 ∨ q.length = 1016 ∨ q.length = 1528) ∧
    ∃ b, nextBit s = some b ∧ s.acc ++ [b] = q ++ markerSeq

/-- R77, R174, R176: `evt_state_changed` is 1 exactly when the step emits a `StateChanged`, and `evt_new_state` is then its
argument, the state the step enters; `evt_payload_valid` is 1 exactly when the step emits a `PayloadRecovered`, and the length
and the bits shown are then the payload's. -/
def Obligations.PortsCarryTheEvents : Prop :=
  ∀ (s t : State) (p : PortOut), Shows s p → step s = .next t →
    (p.evtStateChanged = true ↔ ∃ S, Event.stateChanged S ∈ t.events) ∧
    (∀ S, Event.stateChanged S ∈ t.events → p.evtNewState = S.code ∧ S = t.state) ∧
    (p.evtPayloadValid = true ↔ ∃ q, Event.payloadRecovered q ∈ t.events) ∧
    (∀ q, Event.payloadRecovered q ∈ t.events →
      p.evtPayloadLen.toNat = q.length ∧ ∀ i, i < q.length → q[i]? = some (p.evtPayload.getLsbD i))

/-- R159: the transitions there are, each with its events; no others. -/
def Obligations.TransitionGraph : Prop :=
  ∀ s t : State, s.pins.rst = false → step s = .next t → t.state ≠ s.state →
    (s.state = .hunting ∧ t.state = .verifying ∧ t.events = [.stateChanged .verifying]) ∨
    (s.state = .verifying ∧ t.state = .hunting ∧ t.events = [.stateChanged .hunting]) ∨
    (s.state = .verifying ∧ t.state = .locked ∧
      ∃ q, q.length = 504 ∧ t.events = [.payloadRecovered q, .stateChanged .locked]) ∨
    (s.state = .locked ∧ t.state = .lossCheck ∧ t.events = [.stateChanged .lossCheck]) ∨
    (s.state = .lossCheck ∧ t.state = .locked ∧
      ∃ q, (q.length = 1016 ∨ q.length = 1528) ∧ t.events = [.payloadRecovered q, .stateChanged .locked]) ∨
    (s.state = .lossCheck ∧ t.state = .hunting ∧ t.events = [.stateChanged .hunting])

/-! ## The sub-blocks -/

/-- R101, R102: the window sequence loses its oldest bit once full, gains the new one, and is compared after the update. -/
def Obligations.ObserveShiftsThenCompares : Prop :=
  ∀ (s : State) (b : Bit), windowWf s →
    (s.observe b).1.windowSeq = (if s.winLen = 8#4 then s.windowSeq.tail else s.windowSeq) ++ [b] ∧
    (s.observe b).1.win = (s.win <<< 1 ||| BitVec.setWidth 8 (BitVec.ofBool b)) ∧
    (s.observe b).1.winLen.toNat = min (s.winLen.toNat + 1) 8 ∧
    windowWf (s.observe b).1 ∧
    ((s.observe b).2 = true ↔ (s.observe b).1.win = 0x9B#8)

/-- R46: with the marker retained in the window, none of the next six bits completes a match, and the seventh does exactly when
the seven are `0011011`. -/
def Obligations.RetainedWindowMatchesAtSeventhBit : Prop :=
  ∀ (s : State) (bits : BitSeq), windowIsMarker s → 1 ≤ bits.length → bits.length ≤ 7 →
    ((bits.foldl (fun u b => (u.observe b).1) s).win = 0x9B#8 ↔
      bits = [false, false, true, true, false, true, true])

/-- R110, R53: the append, and the trailing octet reported at exactly `T*256` bits. -/
def Obligations.AdvanceReportsAtExactTarget : Prop :=
  ∀ (s : State) (T : Nat) (b : Bit),
    (s.accLen = 1536 → s.faAdvance T b = .error .accOverflow) ∧
    (s.accLen < 1536 → s.accLen + 1 = T * 256 →
      s.faAdvance T b = .ok ({ s with acc := s.acc ++ [b] }, T, some ((s.acc ++ [b]).drop (T * 256 - 8)))) ∧
    (s.accLen < 1536 → s.accLen + 1 ≠ T * 256 →
      s.faAdvance T b = .ok ({ s with acc := s.acc ++ [b] }, 0, none))

/-! ## Invariants and whole runs -/

/-- R42: from any state within the capacities of the two stores, a step stays within them. -/
def Obligations.StoresStayWithinCapacity : Prop :=
  ∀ s t : State, Memory.wf s → step s = .next t → Memory.wf t

/-- R41, R43: the invariant holds after reset, whatever the input. -/
def Obligations.ResetMeetsReachableInvariant : Prop :=
  ∀ input : List PortIn, reachableInv { State.reset with supply := input }

/-- R41, R46, R125: every step keeps the invariant of the reachable states. -/
def Obligations.StepKeepsReachableInvariant : Prop :=
  ∀ s t : State, reachableInv s → step s = .next t → reachableInv t

/-- R41, R186: no run from reset raises a fault, under any input, and all its states are in the table of R41. -/
def Obligations.NoRunFromResetFaults : Prop :=
  ∀ s : State, reachable s → safe s ∧ reachableTable s

/-- R41, R197: whenever a reachable state's step enters `HUNTING`, the buffer is empty and the window holds the marker. -/
def Obligations.EntryToHuntingKeepsMarkerInWindow : Prop :=
  ∀ s t : State, reachableInv s → s.pins.rst = false → step s = .next t → s.state ≠ .hunting →
    t.state = .hunting → t.acc = [] ∧ windowIsMarker t

/-- R206: from every reachable state the queue is empty within 766 edges, whatever is offered meanwhile. -/
def Obligations.DrainEndsWithin766Edges : Prop :=
  ∀ s : State, reachableInv s → ∃ k t, k ≤ 766 ∧ Sys2Proof.core.run k s = .next t ∧ t.rq = []

/-- R180, R126 d: `process_bit` on a ready block leaves it ready, its queue drained. -/
def Obligations.ProcessBitLeavesBlockReady : Prop :=
  ∀ (s : State) (b : Bit), reachableInv s → s.rq = [] →
    (processBit b s).2.rq = [] ∧ reachableInv (processBit b s).2 ∧ bitReady (processBit b s).2 = true

/-- R131: "feeding a stream with no occurrence of `ALIGNMENT_MARKER` leaves the machine in `HUNTING` forever; no event is ever
emitted". -/
def Obligations.MarkerFreeStreamStaysHunting : Prop :=
  ∀ (bits : BitSeq) (k : Nat), ¬ markerSeq <:+: bits →
    (runFor k { State.reset with supply := bits.map PortIn.offer }).1 = [] ∧
    (runFor k { State.reset with supply := bits.map PortIn.offer }).2.state = .hunting

/-- R139 on external bits: `bits[j]` is stream position p+8+j, so the guard bit is `bits[249]` and the octet at p+512 is at
504. Accepted with the payload, rejected at the guard bit, or rejected at the marker. -/
def Obligations.VerificationInStreamTerms : Prop :=
  ∀ (s : State) (bits : BitSeq) (rest : List PortIn), s.state = .verifying → s.nsel = .n1 → s.acc = [] → s.rq = [] →
    s.fault = false → s.supply = bits.map PortIn.offer ++ rest →
    (bits.length = 512 → bits[249]? = some true → bits.drop 504 = markerSeq →
      runFor 512 s = ([.payloadRecovered (bits.take 504), .stateChanged .locked],
        { s with state := .locked, supply := rest,
                 events := [.payloadRecovered (bits.take 504), .stateChanged .locked] })) ∧
    (bits.length = 256 → bits[249]? = some false →
      runFor 256 s = ([.stateChanged .hunting],
        { s with state := .hunting, rq := bits, supply := rest, events := [.stateChanged .hunting] })) ∧
    (bits.length = 512 → bits[249]? = some true → bits.drop 504 ≠ markerSeq →
      runFor 512 s = ([.stateChanged .hunting],
        { s with state := .hunting, rq := bits, supply := rest, events := [.stateChanged .hunting] }))

/-- R160 on external bits: three bad octets in a row, `LOSS_CHECK` at bit 512, n = 6 at bit 1024 and `HUNTING` at bit 1536, never
earlier and never later. -/
def Obligations.LossEscalationTiming : Prop :=
  ∀ (s : State) (bits : BitSeq) (rest : List PortIn) (k : Nat), s.state = .locked → s.nsel = .n1 → s.acc = [] →
    s.rq = [] → s.fault = false → s.supply = bits.map PortIn.offer ++ rest → bits.length = 1536 →
    (bits.drop 504).take 8 ≠ markerSeq → (bits.drop 1016).take 8 ≠ markerSeq → bits.drop 1528 ≠ markerSeq →
    (k < 512 → (runFor k s).1 = [] ∧ (runFor k s).2.state = .locked ∧ (runFor k s).2.acc = bits.take k) ∧
    (512 ≤ k → k < 1536 → (runFor k s).1 = [.stateChanged .lossCheck] ∧ (runFor k s).2.state = .lossCheck ∧
      (runFor k s).2.nsel = (if k < 1024 then .n4 else .n6) ∧ (runFor k s).2.acc = bits.take k) ∧
    (k = 1536 → (runFor k s).1 = [.stateChanged .lossCheck, .stateChanged .hunting] ∧
      sameRegisters (runFor k s).2 { s with state := .hunting, nsel := .n1, acc := [], rq := [] })

/-! ## Encoding -/

/-- Decode and encode agree, on every operand of every instruction and on every word of both formats. -/
def Obligations.DecodeAndEncodeAgree : Prop :=
  (∀ i : Instr, i.wellFormed = true → decode (encode i) = .ok i) ∧
  (∀ (w : Encoded) (i : Instr), decode w = .ok i → i.wellFormed = true ∧ encode i = w)

/-- R81: the rows are pairwise disjoint; 144 selectors match none; 44 are constructible, and decode. -/
def Obligations.SelectorTableIsUnambiguous : Prop :=
  (∀ w : BitVec 8, (armTable.filter (fun r => r.matchesWord w)).length ≤ 1) ∧
  ((List.range 256).filter (fun w => (rowOf (BitVec.ofNat 8 w)).isNone)).length = 144 ∧
  ((List.range 256).filter (fun w => (decodeTableWord 8 w).isSome)).length = 44

/-- R36: an octet equal to the marker fails the guard test, so that `MK` and `GD` are never both 1. -/
def Obligations.MarkerAndGuardNeverBoth : Prop :=
  (∀ o : BitSeq, o.length = 8 → markerTest o = true → guardTest o = false) ∧
  ∀ (s : State) (b : Bit), ¬((conds s b).mk = true ∧ (conds s b).gd = true)

/-- Words written out bit by bit from R73, R74 and R80 decode to the instructions they stand for. -/
def Obligations.WrittenWordsDecode : Prop :=
  decode (.sel 0b00110001#8) = .ok (.hHit .n6) ∧ decode (.sel 0b01010000#8) = .ok (.vWait .n2) ∧
  decode (.sel 0b01001100#8) = .ok (.v1GuardFail true) ∧ decode (.sel 0b10111100#8) = .ok (.lMarkOk .n6 false) ∧
  decode (.sel 0b11101010#8) = .ok (.c4MarkFail true) ∧ decode (.sel 0b11010000#8) = .ok (.illCn .n2 0#4) ∧
  decode (.sel 0b01001110#8) = .error (.unconstructible 0x4E#8) ∧ decode (.sel 0b00000010#8) = .error (.noRow 0x02#8) ∧
  decode (.sym 0b0#1) = .ok .bit0 ∧ decode (.sym 0b1#1) = .ok .bit1
end

