-- ==== Sys2Proof/Laws/State.lean ====
section
/-! SUPPORT. One lemma per field per update of State, true by rfl, so that no proof unfolds a record update. -/

namespace Sys2Proof.Machine

section
variable (s : State) (S : AlignState)
@[simp] theorem setState_state : (s.setState S).state = S := rfl
@[simp] theorem setState_nsel : (s.setState S).nsel = s.nsel := rfl
@[simp] theorem setState_win : (s.setState S).win = s.win := rfl
@[simp] theorem setState_winLen : (s.setState S).winLen = s.winLen := rfl
@[simp] theorem setState_acc : (s.setState S).acc = s.acc := rfl
@[simp] theorem setState_rq : (s.setState S).rq = s.rq := rfl
@[simp] theorem setState_fault : (s.setState S).fault = s.fault := rfl
@[simp] theorem setState_faultCode : (s.setState S).faultCode = s.faultCode := rfl
@[simp] theorem setState_supply : (s.setState S).supply = s.supply := rfl
@[simp] theorem setState_events : (s.setState S).events = s.events := rfl
end

section
variable (s : State) (n : NSel)
@[simp] theorem setN_state : (s.setN n).state = s.state := rfl
@[simp] theorem setN_nsel : (s.setN n).nsel = n := rfl
@[simp] theorem setN_win : (s.setN n).win = s.win := rfl
@[simp] theorem setN_winLen : (s.setN n).winLen = s.winLen := rfl
@[simp] theorem setN_acc : (s.setN n).acc = s.acc := rfl
@[simp] theorem setN_rq : (s.setN n).rq = s.rq := rfl
@[simp] theorem setN_fault : (s.setN n).fault = s.fault := rfl
@[simp] theorem setN_faultCode : (s.setN n).faultCode = s.faultCode := rfl
@[simp] theorem setN_supply : (s.setN n).supply = s.supply := rfl
@[simp] theorem setN_events : (s.setN n).events = s.events := rfl
end

section
variable (s : State) (e : Event)
@[simp] theorem emit_state : (s.emit e).state = s.state := rfl
@[simp] theorem emit_nsel : (s.emit e).nsel = s.nsel := rfl
@[simp] theorem emit_win : (s.emit e).win = s.win := rfl
@[simp] theorem emit_winLen : (s.emit e).winLen = s.winLen := rfl
@[simp] theorem emit_acc : (s.emit e).acc = s.acc := rfl
@[simp] theorem emit_rq : (s.emit e).rq = s.rq := rfl
@[simp] theorem emit_fault : (s.emit e).fault = s.fault := rfl
@[simp] theorem emit_faultCode : (s.emit e).faultCode = s.faultCode := rfl
@[simp] theorem emit_supply : (s.emit e).supply = s.supply := rfl
@[simp] theorem emit_events : (s.emit e).events = s.events ++ [e] := rfl
end

section
variable (s : State) (b : Bit)
@[simp] theorem observe_state : (s.observe b).1.state = s.state := rfl
@[simp] theorem observe_nsel : (s.observe b).1.nsel = s.nsel := rfl
@[simp] theorem observe_win : (s.observe b).1.win = winNext b s := rfl
@[simp] theorem observe_winLen : (s.observe b).1.winLen = winLenNext s := rfl
@[simp] theorem observe_acc : (s.observe b).1.acc = s.acc := rfl
@[simp] theorem observe_rq : (s.observe b).1.rq = s.rq := rfl
@[simp] theorem observe_fault : (s.observe b).1.fault = s.fault := rfl
@[simp] theorem observe_faultCode : (s.observe b).1.faultCode = s.faultCode := rfl
@[simp] theorem observe_supply : (s.observe b).1.supply = s.supply := rfl
@[simp] theorem observe_events : (s.observe b).1.events = s.events := rfl
@[simp] theorem observe_matched : (s.observe b).2 = (winNext b s == Config.marker) := rfl
end

section
variable (s : State)
@[simp] theorem faClear_state : (s.faClear).state = s.state := rfl
@[simp] theorem faClear_nsel : (s.faClear).nsel = s.nsel := rfl
@[simp] theorem faClear_win : (s.faClear).win = s.win := rfl
@[simp] theorem faClear_winLen : (s.faClear).winLen = s.winLen := rfl
@[simp] theorem faClear_acc : (s.faClear).acc = [] := rfl
@[simp] theorem faClear_rq : (s.faClear).rq = s.rq := rfl
@[simp] theorem faClear_fault : (s.faClear).fault = s.fault := rfl
@[simp] theorem faClear_faultCode : (s.faClear).faultCode = s.faultCode := rfl
@[simp] theorem faClear_supply : (s.faClear).supply = s.supply := rfl
@[simp] theorem faClear_events : (s.faClear).events = s.events := rfl
end

section
variable (s : State) (bits : BitSeq)
@[simp] theorem rqEnqueueAll_state : (s.rqEnqueueAll bits).state = s.state := rfl
@[simp] theorem rqEnqueueAll_nsel : (s.rqEnqueueAll bits).nsel = s.nsel := rfl
@[simp] theorem rqEnqueueAll_win : (s.rqEnqueueAll bits).win = s.win := rfl
@[simp] theorem rqEnqueueAll_winLen : (s.rqEnqueueAll bits).winLen = s.winLen := rfl
@[simp] theorem rqEnqueueAll_acc : (s.rqEnqueueAll bits).acc = s.acc := rfl
@[simp] theorem rqEnqueueAll_rq : (s.rqEnqueueAll bits).rq = bits := rfl
@[simp] theorem rqEnqueueAll_fault : (s.rqEnqueueAll bits).fault = s.fault := rfl
@[simp] theorem rqEnqueueAll_faultCode : (s.rqEnqueueAll bits).faultCode = s.faultCode := rfl
@[simp] theorem rqEnqueueAll_supply : (s.rqEnqueueAll bits).supply = s.supply := rfl
@[simp] theorem rqEnqueueAll_events : (s.rqEnqueueAll bits).events = s.events := rfl
end

section
variable (s : State)
@[simp] theorem rqClear_state : (s.rqClear).state = s.state := rfl
@[simp] theorem rqClear_nsel : (s.rqClear).nsel = s.nsel := rfl
@[simp] theorem rqClear_win : (s.rqClear).win = s.win := rfl
@[simp] theorem rqClear_winLen : (s.rqClear).winLen = s.winLen := rfl
@[simp] theorem rqClear_acc : (s.rqClear).acc = s.acc := rfl
@[simp] theorem rqClear_rq : (s.rqClear).rq = [] := rfl
@[simp] theorem rqClear_fault : (s.rqClear).fault = s.fault := rfl
@[simp] theorem rqClear_faultCode : (s.rqClear).faultCode = s.faultCode := rfl
@[simp] theorem rqClear_supply : (s.rqClear).supply = s.supply := rfl
@[simp] theorem rqClear_events : (s.rqClear).events = s.events := rfl
end

section
variable (s : State)
@[simp] theorem nextCycle_state : (nextCycle s).state = s.state := rfl
@[simp] theorem nextCycle_nsel : (nextCycle s).nsel = s.nsel := rfl
@[simp] theorem nextCycle_win : (nextCycle s).win = s.win := rfl
@[simp] theorem nextCycle_winLen : (nextCycle s).winLen = s.winLen := rfl
@[simp] theorem nextCycle_acc : (nextCycle s).acc = s.acc := rfl
@[simp] theorem nextCycle_rq : (nextCycle s).rq = s.rq := rfl
@[simp] theorem nextCycle_fault : (nextCycle s).fault = s.fault := rfl
@[simp] theorem nextCycle_faultCode : (nextCycle s).faultCode = s.faultCode := rfl
@[simp] theorem nextCycle_supply : (nextCycle s).supply = nextSupply s := rfl
@[simp] theorem nextCycle_events : (nextCycle s).events = [] := rfl
end

section
variable (s : State) (c : FaultCause)
@[simp] theorem raiseFault_state : (raiseFault s c).state = s.state := rfl
@[simp] theorem raiseFault_nsel : (raiseFault s c).nsel = s.nsel := rfl
@[simp] theorem raiseFault_win : (raiseFault s c).win = s.win := rfl
@[simp] theorem raiseFault_winLen : (raiseFault s c).winLen = s.winLen := rfl
@[simp] theorem raiseFault_acc : (raiseFault s c).acc = s.acc := rfl
@[simp] theorem raiseFault_rq : (raiseFault s c).rq = s.rq := rfl
@[simp] theorem raiseFault_fault : (raiseFault s c).fault = true := rfl
@[simp] theorem raiseFault_faultCode : (raiseFault s c).faultCode = c.code := rfl
@[simp] theorem raiseFault_supply : (raiseFault s c).supply = nextSupply s := rfl
@[simp] theorem raiseFault_events : (raiseFault s c).events = [] := rfl
end

section
variable (s : State)
@[simp] theorem resetCycle_state : (resetCycle s).state = .hunting := rfl
@[simp] theorem resetCycle_nsel : (resetCycle s).nsel = .n1 := rfl
@[simp] theorem resetCycle_win : (resetCycle s).win = 0x00#8 := rfl
@[simp] theorem resetCycle_winLen : (resetCycle s).winLen = 0#4 := rfl
@[simp] theorem resetCycle_acc : (resetCycle s).acc = [] := rfl
@[simp] theorem resetCycle_rq : (resetCycle s).rq = [] := rfl
@[simp] theorem resetCycle_fault : (resetCycle s).fault = false := rfl
@[simp] theorem resetCycle_faultCode : (resetCycle s).faultCode = 0b000#3 := rfl
@[simp] theorem resetCycle_supply : (resetCycle s).supply = nextSupply s := rfl
@[simp] theorem resetCycle_events : (resetCycle s).events = [] := rfl
end

end Sys2Proof.Machine
end

