-- ==== Sys2Proof/Laws/Ops.lean ====
section
/-! SUPPORT. One spec lemma per shared operation: what `faAdvance`, `takeBit`, `conds` and `runArm` can do. -/

namespace Sys2Proof.Machine

/-! ## Taking the bit of a step -/

/-- A step's start, in one record: the queue of an `ACCEPT` step is empty, so its tail is what it was. -/
theorem takeBit_eq (s : State) :
    takeBit s = { s with supply := nextSupply s, events := [], rq := s.rq.tail } := by
  cases h : s.rq <;> simp [takeBit, State.rqPop, nextCycle, h]

/-- Where the bit of a step comes from. -/
theorem nextBit_cases {s : State} {b : Bit} (h : nextBit s = some b) :
    s.pins.rst = false ∧ s.fault = false ∧
      ((∃ q, s.rq = b :: q ∧ stepKind s = .replay b) ∨
        (s.rq = [] ∧ s.pins.bitValid = true ∧ s.pins.bitIn = b ∧ stepKind s = .accept b)) := by
  unfold nextBit at h
  cases hr : s.pins.rst <;> cases hf : s.fault <;> cases hq : s.rq <;> cases hv : s.pins.bitValid <;>
    simp_all [stepKind]

theorem nextBit_replay {s : State} {b : Bit} {q : BitSeq} (hr : s.pins.rst = false) (hf : s.fault = false)
    (hq : s.rq = b :: q) : nextBit s = some b := by
  simp [nextBit, stepKind, hr, hf, hq]

theorem nextBit_accept {s : State} (hr : s.pins.rst = false) (hf : s.fault = false) (hq : s.rq = [])
    (hv : s.pins.bitValid = true) : nextBit s = some s.pins.bitIn := by
  simp [nextBit, stepKind, hr, hf, hq, hv]

/-- A cycle without a bit is reset, halted or idle. -/
theorem nextBit_none {s : State} (h : nextBit s = none) :
    (s.pins.rst = true ∧ stepKind s = .reset) ∨ (s.pins.rst = false ∧ s.fault = true ∧ stepKind s = .halted) ∨
      (s.pins.rst = false ∧ s.fault = false ∧ s.rq = [] ∧ s.pins.bitValid = false ∧ stepKind s = .idle) := by
  unfold nextBit at h
  cases hr : s.pins.rst <;> cases hf : s.fault <;> cases hq : s.rq <;> cases hv : s.pins.bitValid <;>
    simp_all [stepKind]

/-! ## `FA.advance` -/

theorem faAdvance_full {s : State} (T : Nat) (b : Bit) (h : Config.accCap ≤ s.accLen) :
    s.faAdvance T b = .error .accOverflow := by
  simp [State.faAdvance, h]

theorem faAdvance_at {s : State} {T : Nat} (b : Bit) (h : s.accLen < Config.accCap)
    (ht : s.accLen + 1 = targetBits T) :
    s.faAdvance T b = .ok ({ s with acc := s.acc ++ [b] }, T, some (trailingOctet (s.acc ++ [b]))) := by
  simp [State.faAdvance, Nat.not_le.mpr h, ← ht]

theorem faAdvance_off {s : State} {T : Nat} (b : Bit) (h : s.accLen < Config.accCap)
    (ht : s.accLen + 1 ≠ targetBits T) :
    s.faAdvance T b = .ok ({ s with acc := s.acc ++ [b] }, 0, none) := by
  simp only [State.faAdvance, Nat.not_le.mpr h, if_false]
  rw [if_neg]; simpa using ht

/-- What an accumulating arm does: its action on the buffer with the bit appended, or `ACC_OVERFLOW`. -/
theorem afterAdvance_ok {s : State} (T : Nat) (b : Bit) (act : State → State) (h : s.accLen < Config.accCap) :
    afterAdvance T b act s = .ok (act { s with acc := s.acc ++ [b] }) := by
  by_cases ht : s.accLen + 1 = targetBits T
  · simp [afterAdvance, faAdvance_at b h ht]
  · simp [afterAdvance, faAdvance_off b h ht]

theorem afterAdvance_full {s : State} (T : Nat) (b : Bit) (act : State → State) (h : Config.accCap ≤ s.accLen) :
    afterAdvance T b act s = .error .accOverflow := by
  simp [afterAdvance, faAdvance_full T b h]

/-! ## Conditions -/

theorem conds_hunting {s : State} (b : Bit) (h : s.state = .hunting) :
    conds s b = ⟨false, false, false, winNext b s == Config.marker⟩ := by
  simp [conds, targetFrames, h]

theorem conds_illegal {s : State} (b : Bit) (h : illegalPair s.state s.nsel = true) : conds s b = Conds.zero := by
  cases hs : s.state <;> simp_all [conds, targetFrames, illegalPair]

theorem conds_off {s : State} (b : Bit) {T : Nat} (hT : targetFrames s.state s.nsel = some T)
    (h : Config.accCap ≤ s.accLen ∨ s.accLen + 1 ≠ targetBits T) : conds s b = Conds.zero := by
  simp only [conds, hT]
  split
  · rfl
  · by_cases hc : Config.accCap ≤ s.accLen
    · simp [faAdvance_full T b hc]
    · simp [faAdvance_off b (Nat.not_le.mp hc) (h.resolve_left hc)]

theorem conds_at {s : State} (b : Bit) {T : Nat} (hT : targetFrames s.state s.nsel = some T)
    (hi : illegalPair s.state s.nsel = false) (hc : s.accLen < Config.accCap)
    (h : s.accLen + 1 = targetBits T) :
    conds s b = ⟨true, markerTest (trailingOctet (s.acc ++ [b])), guardTest (trailingOctet (s.acc ++ [b])), false⟩ := by
  simp [conds, hT, hi, faAdvance_at b hc h]

/-! ## The trailing octet -/

theorem trailingOctet_eq (acc : BitSeq) : trailingOctet acc = acc.drop (acc.length - 8) := by
  simp only [trailingOctet, memRead, Config.octetBits]
  exact List.take_of_length_le (by simp; omega)

theorem trailingOctet_length {acc : BitSeq} (h : 8 ≤ acc.length) : (trailingOctet acc).length = 8 := by
  rw [trailingOctet_eq, List.length_drop]; omega

/-- The eight bits of an octet, one by one. -/
theorem eight_bits {o : BitSeq} (h : o.length = 8) :
    ∃ a b c d e f g k, o = [a, b, c, d, e, f, g, k] := by
  match o, h with
  | [a, b, c, d, e, f, g, k], _ => exact ⟨a, b, c, d, e, f, g, k, rfl⟩

/-- `MK` compares all eight bits with the marker's. -/
theorem markerTest_iff {o : BitSeq} (h : o.length = 8) : markerTest o = true ↔ o = markerSeq := by
  obtain ⟨a, b, c, d, e, f, g, k, rfl⟩ := eight_bits h
  revert a b c d e f g k
  decide

/-- R36. -/
theorem guardTest_of_markerTest {o : BitSeq} (h : o.length = 8) (hm : markerTest o = true) : guardTest o = false := by
  rw [(markerTest_iff h).mp hm]; decide

theorem guardTest_eq (o : BitSeq) : guardTest o = o.getD 1 false := by
  simp [guardTest, Config.guardBitIndex, Config.guardBitValue]

/-! ## Running an arm -/

theorem runArm_of {i : Instr} {body : Bit → State → Except FaultCause State} {s : State} {b : Bit}
    (hb : nextBit s = some b) (hw : i.wellFormed = true) (hi : encode i = .sel (selector s b)) :
    runArm i body s = .next (commit s (body b (takeBit s))) := by
  simp [runArm, hb, hw, hi]

/-- An arm that answers a next state was selected, and the state is its action committed. -/
theorem runArm_next {i : Instr} {body : Bit → State → Except FaultCause State} {s t : State}
    (h : runArm i body s = .next t) :
    ∃ b, nextBit s = some b ∧ i.wellFormed = true ∧ encode i = .sel (selector s b) ∧
      t = commit s (body b (takeBit s)) := by
  unfold runArm at h
  split at h
  · cases h
  · rename_i b hb
    split at h
    · rename_i hi; cases h; exact ⟨b, hb, hi.1, hi.2, rfl⟩
    · cases h

@[simp] theorem commit_ok (s t : State) : commit s (.ok t) = t := rfl

@[simp] theorem commit_error (s : State) (c : FaultCause) : commit s (.error c) = raiseFault s c := rfl

/-- A step's accumulating arm: its action on the buffer with the bit appended. -/
theorem commit_afterAdvance {s : State} (T : Nat) (b : Bit) (act : State → State) (h : s.accLen < Config.accCap) :
    commit s (afterAdvance T b act (takeBit s)) =
      act { s with supply := nextSupply s, events := [], rq := s.rq.tail, acc := s.acc ++ [b] } := by
  rw [takeBit_eq, afterAdvance_ok T b act (by simpa using h)]
  rfl

theorem commit_afterAdvance_full {s : State} (T : Nat) (b : Bit) (act : State → State)
    (h : Config.accCap ≤ s.accLen) : commit s (afterAdvance T b act (takeBit s)) = raiseFault s .accOverflow := by
  rw [takeBit_eq, afterAdvance_full T b act (by simpa using h)]
  rfl

end Sys2Proof.Machine
end

