-- ==== Sys2Proof/Laws/Select.lean ====
section
/-! SUPPORT. When a step's selector is an arm's word, field by field (R74, R80). -/

namespace Sys2Proof

@[simp] theorem AlignState.ofCode_code (S : AlignState) : AlignState.ofCode S.code = S := by cases S <;> rfl

@[simp] theorem NSel.ofCode_code (n : NSel) : NSel.ofCode n.code = n := by cases n <;> rfl

theorem selWord_state : ∀ (S n : BitVec 2) (cp mk gd hit : Bit),
    (selWord S n cp mk gd hit).extractLsb' 6 2 = S := by decide

theorem selWord_nsel : ∀ (S n : BitVec 2) (cp mk gd hit : Bit),
    (selWord S n cp mk gd hit).extractLsb' 4 2 = n := by decide

theorem selWord_conds : ∀ (S n : BitVec 2) (cp mk gd hit : Bit),
    (selWord S n cp mk gd hit).getLsbD 3 = cp ∧ (selWord S n cp mk gd hit).getLsbD 2 = mk ∧
      (selWord S n cp mk gd hit).getLsbD 1 = gd ∧ (selWord S n cp mk gd hit).getLsbD 0 = hit := by decide

theorem selWord_fields : ∀ w : BitVec 8,
    selWord (w.extractLsb' 6 2) (w.extractLsb' 4 2) (w.getLsbD 3) (w.getLsbD 2) (w.getLsbD 1) (w.getLsbD 0) = w := by
  decide

theorem AlignState.code_ofCode : ∀ c : BitVec 2, (AlignState.ofCode c).code = c := by decide

theorem NSel.code_ofCode : ∀ c : BitVec 2, (NSel.ofCode c).code = c := by decide

namespace Machine

/-- A step's selector is the word w exactly when the state and the conditions are w's fields. -/
theorem selector_eq_iff (s : State) (b : Bit) (w : BitVec 8) :
    selector s b = w ↔ s.state = AlignState.ofCode (w.extractLsb' 6 2) ∧ s.nsel = selN w ∧
      conds s b = ⟨w.getLsbD 3, w.getLsbD 2, w.getLsbD 1, w.getLsbD 0⟩ := by
  constructor
  · rintro rfl
    obtain ⟨h1, h2, h3, h4⟩ := selWord_conds s.state.code s.nsel.code (conds s b).cp (conds s b).mk (conds s b).gd
      (conds s b).hit
    refine ⟨?_, ?_, ?_⟩
    · rw [selector, selWord_state, AlignState.ofCode_code]
    · rw [selN, selector, selWord_nsel, NSel.ofCode_code]
    · rw [selector, h1, h2, h3, h4]
  · rintro ⟨h1, h2, h3⟩
    rw [selector, h1, h2, h3, selN, AlignState.code_ofCode, NSel.code_ofCode, selWord_fields]

theorem selected_iff {i : Instr} {w : BitVec 8} (hw : encode i = .sel w) (s : State) (b : Bit) :
    encode i = .sel (selector s b) ↔ s.state = AlignState.ofCode (w.extractLsb' 6 2) ∧ s.nsel = selN w ∧
      conds s b = ⟨w.getLsbD 3, w.getLsbD 2, w.getLsbD 1, w.getLsbD 0⟩ := by
  rw [hw, ← selector_eq_iff, Encoded.sel.injEq]
  exact eq_comm

section
variable (s : State) (b : Bit)

theorem selected_hMiss (n : NSel) : encode (.hMiss n) = .sel (selector s b) ↔
    s.state = .hunting ∧ s.nsel = n ∧ conds s b = ⟨false, false, false, false⟩ :=
  (selected_iff rfl s b).trans (by cases n <;> rfl)

theorem selected_hHit (n : NSel) : encode (.hHit n) = .sel (selector s b) ↔
    s.state = .hunting ∧ s.nsel = n ∧ conds s b = ⟨false, false, false, true⟩ :=
  (selected_iff rfl s b).trans (by cases n <;> rfl)

theorem selected_vWait (n : NSel) : encode (.vWait n) = .sel (selector s b) ↔
    s.state = .verifying ∧ s.nsel = n ∧ conds s b = ⟨false, false, false, false⟩ :=
  (selected_iff rfl s b).trans (by cases n <;> rfl)

theorem selected_v1GuardOk (x : Bit) : encode (.v1GuardOk x) = .sel (selector s b) ↔
    s.state = .verifying ∧ s.nsel = .n1 ∧ conds s b = ⟨true, x, true, false⟩ :=
  (selected_iff rfl s b).trans (by cases x <;> rfl)

theorem selected_v1GuardFail (x : Bit) : encode (.v1GuardFail x) = .sel (selector s b) ↔
    s.state = .verifying ∧ s.nsel = .n1 ∧ conds s b = ⟨true, x, false, false⟩ :=
  (selected_iff rfl s b).trans (by cases x <;> rfl)

theorem selected_v2MarkOk (x : Bit) : encode (.v2MarkOk x) = .sel (selector s b) ↔
    s.state = .verifying ∧ s.nsel = .n2 ∧ conds s b = ⟨true, true, x, false⟩ :=
  (selected_iff rfl s b).trans (by cases x <;> rfl)

theorem selected_v2MarkFail (x : Bit) : encode (.v2MarkFail x) = .sel (selector s b) ↔
    s.state = .verifying ∧ s.nsel = .n2 ∧ conds s b = ⟨true, false, x, false⟩ :=
  (selected_iff rfl s b).trans (by cases x <;> rfl)

theorem selected_lWait (n : NSel) : encode (.lWait n) = .sel (selector s b) ↔
    s.state = .locked ∧ s.nsel = n ∧ conds s b = ⟨false, false, false, false⟩ :=
  (selected_iff rfl s b).trans (by cases n <;> rfl)

theorem selected_lMarkOk (n : NSel) (x : Bit) : encode (.lMarkOk n x) = .sel (selector s b) ↔
    s.state = .locked ∧ s.nsel = n ∧ conds s b = ⟨true, true, x, false⟩ :=
  (selected_iff rfl s b).trans (by cases n <;> cases x <;> rfl)

theorem selected_lMarkFail (n : NSel) (x : Bit) : encode (.lMarkFail n x) = .sel (selector s b) ↔
    s.state = .locked ∧ s.nsel = n ∧ conds s b = ⟨true, false, x, false⟩ :=
  (selected_iff rfl s b).trans (by cases n <;> cases x <;> rfl)

theorem selected_cWait (n : NSel) : encode (.cWait n) = .sel (selector s b) ↔
    s.state = .lossCheck ∧ s.nsel = n ∧ conds s b = ⟨false, false, false, false⟩ :=
  (selected_iff rfl s b).trans (by cases n <;> rfl)

theorem selected_c4MarkOk (x : Bit) : encode (.c4MarkOk x) = .sel (selector s b) ↔
    s.state = .lossCheck ∧ s.nsel = .n4 ∧ conds s b = ⟨true, true, x, false⟩ :=
  (selected_iff rfl s b).trans (by cases x <;> rfl)

theorem selected_c4MarkFail (x : Bit) : encode (.c4MarkFail x) = .sel (selector s b) ↔
    s.state = .lossCheck ∧ s.nsel = .n4 ∧ conds s b = ⟨true, false, x, false⟩ :=
  (selected_iff rfl s b).trans (by cases x <;> rfl)

theorem selected_c6MarkOk (x : Bit) : encode (.c6MarkOk x) = .sel (selector s b) ↔
    s.state = .lossCheck ∧ s.nsel = .n6 ∧ conds s b = ⟨true, true, x, false⟩ :=
  (selected_iff rfl s b).trans (by cases x <;> rfl)

theorem selected_c6MarkFail (x : Bit) : encode (.c6MarkFail x) = .sel (selector s b) ↔
    s.state = .lossCheck ∧ s.nsel = .n6 ∧ conds s b = ⟨true, false, x, false⟩ :=
  (selected_iff rfl s b).trans (by cases x <;> rfl)

theorem illVn_fields : ∀ (n : BitVec 2) (x : BitVec 4), (0b01#2 ++ n ++ x).extractLsb' 6 2 = 0b01#2 ∧
    (0b01#2 ++ n ++ x).extractLsb' 4 2 = n ∧ (0b01#2 ++ n ++ x).getLsbD 3 = x.getLsbD 3 ∧
    (0b01#2 ++ n ++ x).getLsbD 2 = x.getLsbD 2 ∧ (0b01#2 ++ n ++ x).getLsbD 1 = x.getLsbD 1 ∧
    (0b01#2 ++ n ++ x).getLsbD 0 = x.getLsbD 0 := by decide

theorem selected_illVn (n : NSel) (x : BitVec 4) : encode (.illVn n x) = .sel (selector s b) ↔
    s.state = .verifying ∧ s.nsel = n ∧ conds s b = ⟨x.getLsbD 3, x.getLsbD 2, x.getLsbD 1, x.getLsbD 0⟩ := by
  obtain ⟨h1, h2, h3, h4, h5, h6⟩ := illVn_fields n.code x
  rw [selected_iff rfl s b, selN, h1, h2, h3, h4, h5, h6, NSel.ofCode_code]
  rfl

theorem illCn_fields : ∀ (n : BitVec 2) (x : BitVec 4), (0b11#2 ++ n ++ x).extractLsb' 6 2 = 0b11#2 ∧
    (0b11#2 ++ n ++ x).extractLsb' 4 2 = n ∧ (0b11#2 ++ n ++ x).getLsbD 3 = x.getLsbD 3 ∧
    (0b11#2 ++ n ++ x).getLsbD 2 = x.getLsbD 2 ∧ (0b11#2 ++ n ++ x).getLsbD 1 = x.getLsbD 1 ∧
    (0b11#2 ++ n ++ x).getLsbD 0 = x.getLsbD 0 := by decide

theorem selected_illCn (n : NSel) (x : BitVec 4) : encode (.illCn n x) = .sel (selector s b) ↔
    s.state = .lossCheck ∧ s.nsel = n ∧ conds s b = ⟨x.getLsbD 3, x.getLsbD 2, x.getLsbD 1, x.getLsbD 0⟩ := by
  obtain ⟨h1, h2, h3, h4, h5, h6⟩ := illCn_fields n.code x
  rw [selected_iff rfl s b, selN, h1, h2, h3, h4, h5, h6, NSel.ofCode_code]
  rfl

end

end Machine

end Sys2Proof
end

