-- ==== Sys2Proof/Laws/Exec.lean ====
section
/-! SUPPORT. Everything a step can do, said once: `ArmCase s b i t` is one arm's condition, word and next state, and
`step_cases` is the inversion of `step`. -/

namespace Sys2Proof

theorem NSel.isLow_cases {n : NSel} (h : n.isLow = true) : n = .n1 ∨ n = .n2 := by
  cases n <;> simp_all [NSel.isLow]

theorem NSel.isHigh_cases {n : NSel} (h : n.isHigh = true) : n = .n4 ∨ n = .n6 := by
  cases n <;> simp_all [NSel.isHigh, NSel.isLow]

namespace Machine

/-- In the step of s that processes b, the arm i is taken and leaves t. -/
inductive ArmCase (s : State) (b : Bit) : Instr → State → Prop where
  | hMiss (hs : s.state = .hunting) (hw : winNext b s ≠ Config.marker) :
      ArmCase s b (.hMiss s.nsel) { s with
        supply := nextSupply s, events := [], rq := s.rq.tail, win := winNext b s, winLen := winLenNext s }
  | hHit (hs : s.state = .hunting) (hw : winNext b s = Config.marker) :
      ArmCase s b (.hHit s.nsel) { s with
        supply := nextSupply s, events := [.stateChanged .verifying], rq := s.rq.tail, win := winNext b s,
        winLen := winLenNext s, state := .verifying, nsel := .n1, acc := [] }
  | vWait (hs : s.state = .verifying) (hn : s.nsel.isLow = true) (hc : s.accLen < Config.accCap)
      (hl : s.accLen + 1 ≠ s.nsel.val * 256) :
      ArmCase s b (.vWait s.nsel) { s with
        supply := nextSupply s, events := [], rq := s.rq.tail, acc := s.acc ++ [b] }
  | vWaitFull (hs : s.state = .verifying) (hn : s.nsel.isLow = true) (hc : Config.accCap ≤ s.accLen) :
      ArmCase s b (.vWait s.nsel) (raiseFault s .accOverflow)
  | v1GuardOk (hs : s.state = .verifying) (hn : s.nsel = .n1) (hl : s.accLen = 255)
      (hg : s.accBit 249 = some true) :
      ArmCase s b (.v1GuardOk false) { s with
        supply := nextSupply s, events := [], rq := s.rq.tail, acc := s.acc ++ [b], nsel := .n2 }
  | v1GuardFail (hs : s.state = .verifying) (hn : s.nsel = .n1) (hl : s.accLen = 255)
      (hg : s.accBit 249 = some false) :
      ArmCase s b (.v1GuardFail (decide ((s.acc ++ [b]).drop 248 = markerSeq))) { s with
        supply := nextSupply s, events := [.stateChanged .hunting], rq := s.acc ++ [b], acc := [], nsel := .n1,
        state := .hunting }
  | v2MarkOk (hs : s.state = .verifying) (hn : s.nsel = .n2) (hl : s.accLen = 511)
      (hm : (s.acc ++ [b]).drop 504 = markerSeq) :
      ArmCase s b (.v2MarkOk false) { s with
        supply := nextSupply s, events := [.payloadRecovered (s.acc.take 504), .stateChanged .locked], rq := [],
        acc := [], nsel := .n1, state := .locked }
  | v2MarkFail (g : Bit) (hs : s.state = .verifying) (hn : s.nsel = .n2) (hl : s.accLen = 511)
      (hm : (s.acc ++ [b]).drop 504 ≠ markerSeq) (hg : s.accBit 505 = some g) :
      ArmCase s b (.v2MarkFail g) { s with
        supply := nextSupply s, events := [.stateChanged .hunting], rq := s.acc ++ [b], acc := [], nsel := .n1,
        state := .hunting }
  | illVn (hs : s.state = .verifying) (hn : s.nsel.isHigh = true) :
      ArmCase s b (.illVn s.nsel 0#4) (raiseFault s .illVn)
  | lWait (hs : s.state = .locked) (hc : s.accLen < Config.accCap) (hl : s.accLen + 1 ≠ 512) :
      ArmCase s b (.lWait s.nsel) { s with
        supply := nextSupply s, events := [], rq := s.rq.tail, acc := s.acc ++ [b] }
  | lWaitFull (hs : s.state = .locked) (hc : Config.accCap ≤ s.accLen) :
      ArmCase s b (.lWait s.nsel) (raiseFault s .accOverflow)
  | lMarkOk (hs : s.state = .locked) (hl : s.accLen = 511) (hm : (s.acc ++ [b]).drop 504 = markerSeq) :
      ArmCase s b (.lMarkOk s.nsel false) { s with
        supply := nextSupply s, events := [.payloadRecovered (s.acc.take 504)], rq := s.rq.tail, acc := [] }
  | lMarkFail (g : Bit) (hs : s.state = .locked) (hl : s.accLen = 511)
      (hm : (s.acc ++ [b]).drop 504 ≠ markerSeq) (hg : s.accBit 505 = some g) :
      ArmCase s b (.lMarkFail s.nsel g) { s with
        supply := nextSupply s, events := [.stateChanged .lossCheck], rq := s.rq.tail, acc := s.acc ++ [b],
        nsel := .n4, state := .lossCheck }
  | illCn (hs : s.state = .lossCheck) (hn : s.nsel.isLow = true) :
      ArmCase s b (.illCn s.nsel 0#4) (raiseFault s .illCn)
  | cWait (hs : s.state = .lossCheck) (hn : s.nsel.isHigh = true) (hc : s.accLen < Config.accCap)
      (hl : s.accLen + 1 ≠ s.nsel.val * 256) :
      ArmCase s b (.cWait s.nsel) { s with
        supply := nextSupply s, events := [], rq := s.rq.tail, acc := s.acc ++ [b] }
  | cWaitFull (hs : s.state = .lossCheck) (hn : s.nsel.isHigh = true) (hc : Config.accCap ≤ s.accLen) :
      ArmCase s b (.cWait s.nsel) (raiseFault s .accOverflow)
  | c4MarkOk (hs : s.state = .lossCheck) (hn : s.nsel = .n4) (hl : s.accLen = 1023)
      (hm : (s.acc ++ [b]).drop 1016 = markerSeq) :
      ArmCase s b (.c4MarkOk false) { s with
        supply := nextSupply s, events := [.payloadRecovered (s.acc.take 1016), .stateChanged .locked],
        rq := s.rq.tail, acc := [], nsel := .n1, state := .locked }
  | c4MarkFail (g : Bit) (hs : s.state = .lossCheck) (hn : s.nsel = .n4) (hl : s.accLen = 1023)
      (hm : (s.acc ++ [b]).drop 1016 ≠ markerSeq) (hg : s.accBit 1017 = some g) :
      ArmCase s b (.c4MarkFail g) { s with
        supply := nextSupply s, events := [], rq := s.rq.tail, acc := s.acc ++ [b], nsel := .n6 }
  | c6MarkOk (hs : s.state = .lossCheck) (hn : s.nsel = .n6) (hl : s.accLen = 1535)
      (hm : (s.acc ++ [b]).drop 1528 = markerSeq) :
      ArmCase s b (.c6MarkOk false) { s with
        supply := nextSupply s, events := [.payloadRecovered (s.acc.take 1528), .stateChanged .locked],
        rq := s.rq.tail, acc := [], nsel := .n1, state := .locked }
  | c6MarkFail (g : Bit) (hs : s.state = .lossCheck) (hn : s.nsel = .n6) (hl : s.accLen = 1535)
      (hm : (s.acc ++ [b]).drop 1528 ≠ markerSeq) (hg : s.accBit 1529 = some g) :
      ArmCase s b (.c6MarkFail g) { s with
        supply := nextSupply s, events := [.stateChanged .hunting], rq := [], acc := [], nsel := .n1,
        state := .hunting }

/-! ## Checkpoints -/

/-- The octet of a checkpoint, and its guard bit, by index into the buffer. -/
theorem conds_checkpoint {s : State} (b g : Bit) {T k : Nat} (hT : targetFrames s.state s.nsel = some T)
    (hi : illegalPair s.state s.nsel = false) (hk : s.accLen = k) (hc : k < Config.accCap) (h : k + 1 = targetBits T)
    (h8 : 8 ≤ k) (hg : s.accBit (k - 6) = some g) :
    conds s b = ⟨true, decide ((s.acc ++ [b]).drop (k - 7) = markerSeq), g, false⟩ := by
  have hlen : (s.acc ++ [b]).length = k + 1 := by simp [State.accLen] at hk; simp [hk]
  have ho : trailingOctet (s.acc ++ [b]) = (s.acc ++ [b]).drop (k - 7) := by
    rw [trailingOctet_eq, hlen]; congr 1
  have h8' : (trailingOctet (s.acc ++ [b])).length = 8 := trailingOctet_length (by omega)
  have hm : markerTest (trailingOctet (s.acc ++ [b])) = decide ((s.acc ++ [b]).drop (k - 7) = markerSeq) := by
    rw [Bool.eq_iff_iff, markerTest_iff h8', ho, decide_eq_true_iff]
  have hgt : guardTest (trailingOctet (s.acc ++ [b])) = g := by
    rw [guardTest_eq, ho, List.getD_eq_getElem?_getD, List.getElem?_drop,
      List.getElem?_append_left (by simp [State.accLen] at hk; omega)]
    have : k - 7 + 1 = k - 6 := by omega
    rw [this]
    simp [State.accBit] at hg
    simp [hg]
  rw [conds_at b hT hi (by omega) (by omega), hm, hgt]

/-- The guard bit of a marker is 0 (R36). -/
theorem guard_of_marker {s : State} {b : Bit} {k : Nat} (hk : s.accLen = k) (h8 : 8 ≤ k)
    (hm : (s.acc ++ [b]).drop (k - 7) = markerSeq) : s.accBit (k - 6) = some false := by
  have h1 : ((s.acc ++ [b]).drop (k - 7))[1]? = some false := by rw [hm]; rfl
  rw [List.getElem?_drop, List.getElem?_append_left (by simp [State.accLen] at hk; omega)] at h1
  have : k - 7 + 1 = k - 6 := by omega
  rwa [this] at h1

/-- A buffer index below the length holds a bit. -/
theorem accBit_some {s : State} {a : Nat} (h : a < s.accLen) : ∃ g, s.accBit a = some g :=
  ⟨s.acc[a], List.getElem?_eq_getElem h⟩

/-! ## The arms run -/

section
variable {s t : State} {b : Bit} {i : Instr}

theorem ArmCase.wellFormed (h : ArmCase s b i t) : i.wellFormed = true := by
  cases h <;> simp_all [Instr.wellFormed]

/-- An arm's word is the step's selector. -/
theorem ArmCase.selected (h : ArmCase s b i t) : encode i = .sel (selector s b) := by
  cases h with
  | hMiss hs hw => rw [selected_hMiss]; simp [hs, conds_hunting, hw]
  | hHit hs hw => rw [selected_hHit]; simp [hs, conds_hunting, hw]
  | vWait hs hn hc hl =>
    rw [selected_vWait]
    exact ⟨hs, rfl, conds_off b (T := s.nsel.val) (by simp [targetFrames, hs]) (.inr hl)⟩
  | vWaitFull hs hn hc =>
    rw [selected_vWait]
    exact ⟨hs, rfl, conds_off b (T := s.nsel.val) (by simp [targetFrames, hs]) (.inl hc)⟩
  | v1GuardOk hs hn hl hg =>
    rw [selected_v1GuardOk, conds_checkpoint b true (T := 1) (by simp [targetFrames, hs, hn, NSel.val])
      (by simp [illegalPair, hs, hn, NSel.isHigh, NSel.isLow]) hl (by decide) (by decide) (by decide) hg]
    refine ⟨hs, hn, ?_⟩
    rw [decide_eq_false]
    intro hm
    have := guard_of_marker hl (by decide) hm
    rw [hg] at this; cases this
  | v1GuardFail hs hn hl hg =>
    rw [selected_v1GuardFail, conds_checkpoint b false (T := 1) (by simp [targetFrames, hs, hn, NSel.val])
      (by simp [illegalPair, hs, hn, NSel.isHigh, NSel.isLow]) hl (by decide) (by decide) (by decide) hg]
    exact ⟨hs, hn, rfl⟩
  | v2MarkOk hs hn hl hm =>
    rw [selected_v2MarkOk, conds_checkpoint b false (T := 2) (by simp [targetFrames, hs, hn, NSel.val])
      (by simp [illegalPair, hs, hn, NSel.isHigh, NSel.isLow]) hl (by decide) (by decide) (by decide)
      (guard_of_marker hl (by decide) hm)]
    exact ⟨hs, hn, by simp [hm]⟩
  | v2MarkFail g hs hn hl hm hg =>
    rw [selected_v2MarkFail, conds_checkpoint b g (T := 2) (by simp [targetFrames, hs, hn, NSel.val])
      (by simp [illegalPair, hs, hn, NSel.isHigh, NSel.isLow]) hl (by decide) (by decide) (by decide) hg]
    exact ⟨hs, hn, by simp [hm]⟩
  | illVn hs hn =>
    rw [selected_illVn]
    exact ⟨hs, rfl, conds_illegal b (by simp [illegalPair, hs, hn])⟩
  | lWait hs hc hl =>
    rw [selected_lWait]
    exact ⟨hs, rfl, conds_off b (T := 2) (by simp [targetFrames, hs, Config.lockedTarget]) (.inr hl)⟩
  | lWaitFull hs hc =>
    rw [selected_lWait]
    exact ⟨hs, rfl, conds_off b (T := 2) (by simp [targetFrames, hs, Config.lockedTarget]) (.inl hc)⟩
  | lMarkOk hs hl hm =>
    rw [selected_lMarkOk, conds_checkpoint b false (T := 2) (by simp [targetFrames, hs, Config.lockedTarget])
      (by simp [illegalPair, hs]) hl (by decide) (by decide) (by decide) (guard_of_marker hl (by decide) hm)]
    exact ⟨hs, rfl, by simp [hm]⟩
  | lMarkFail g hs hl hm hg =>
    rw [selected_lMarkFail, conds_checkpoint b g (T := 2) (by simp [targetFrames, hs, Config.lockedTarget])
      (by simp [illegalPair, hs]) hl (by decide) (by decide) (by decide) hg]
    exact ⟨hs, rfl, by simp [hm]⟩
  | illCn hs hn =>
    rw [selected_illCn]
    exact ⟨hs, rfl, conds_illegal b (by simp [illegalPair, hs, hn])⟩
  | cWait hs hn hc hl =>
    rw [selected_cWait]
    exact ⟨hs, rfl, conds_off b (T := s.nsel.val) (by simp [targetFrames, hs]) (.inr hl)⟩
  | cWaitFull hs hn hc =>
    rw [selected_cWait]
    exact ⟨hs, rfl, conds_off b (T := s.nsel.val) (by simp [targetFrames, hs]) (.inl hc)⟩
  | c4MarkOk hs hn hl hm =>
    rw [selected_c4MarkOk, conds_checkpoint b false (T := 4) (by simp [targetFrames, hs, hn, NSel.val])
      (by simp [illegalPair, hs, hn, NSel.isLow]) hl (by decide) (by decide) (by decide)
      (guard_of_marker hl (by decide) hm)]
    exact ⟨hs, hn, by simp [hm]⟩
  | c4MarkFail g hs hn hl hm hg =>
    rw [selected_c4MarkFail, conds_checkpoint b g (T := 4) (by simp [targetFrames, hs, hn, NSel.val])
      (by simp [illegalPair, hs, hn, NSel.isLow]) hl (by decide) (by decide) (by decide) hg]
    exact ⟨hs, hn, by simp [hm]⟩
  | c6MarkOk hs hn hl hm =>
    rw [selected_c6MarkOk, conds_checkpoint b false (T := 6) (by simp [targetFrames, hs, hn, NSel.val])
      (by simp [illegalPair, hs, hn, NSel.isLow]) hl (by decide) (by decide) (by decide)
      (guard_of_marker hl (by decide) hm)]
    exact ⟨hs, hn, by simp [hm]⟩
  | c6MarkFail g hs hn hl hm hg =>
    rw [selected_c6MarkFail, conds_checkpoint b g (T := 6) (by simp [targetFrames, hs, hn, NSel.val])
      (by simp [illegalPair, hs, hn, NSel.isLow]) hl (by decide) (by decide) (by decide) hg]
    exact ⟨hs, hn, by simp [hm]⟩

/-- The payload of a checkpoint lies in the buffer as it was before the append. -/
theorem faPayload_append {u : State} {acc : BitSeq} {T : Nat} (hu : u.acc = acc ++ [b])
    (hl : acc.length + 1 = targetBits T) (hT : 8 ≤ targetBits T) : faPayload T u = acc.take (targetBits T - 8) := by
  simp only [faPayload, memRead, hu, List.drop_zero, Config.payloadTrim]
  rw [List.take_append_of_le_length (by omega)]

theorem faSnapshot_eq (u : State) : faSnapshot u = u.acc := by
  simp [faSnapshot, memRead, State.accLen]

/-- A selected arm run: the whole next state. -/
theorem ArmCase.exec_eq (h : ArmCase s b i t) (hb : nextBit s = some b) : exec i s = .next t := by
  have hw := h.wellFormed
  have hsel := h.selected
  have hrun := fun body => runArm_of (i := i) (body := body) hb hw hsel
  cases h with
  | hMiss hs hm =>
    refine (hrun (fun b t => .ok (t.observe b).1)).trans ?_
    rw [takeBit_eq]
    rfl
  | hHit hs hm =>
    refine (hrun (fun b t =>
      .ok ((((t.observe b).1.setState .verifying).setN .n1).faClear.emit (.stateChanged .verifying)))).trans ?_
    rw [takeBit_eq]
    rfl
  | vWait hs hn hc hl => exact (hrun _).trans (by rw [commit_afterAdvance _ _ _ hc]; rfl)
  | vWaitFull hs hn hc => exact (hrun _).trans (by rw [commit_afterAdvance_full _ _ _ hc])
  | v1GuardOk hs hn hl hg =>
    exact (hrun _).trans (by rw [commit_afterAdvance _ _ _ (by rw [hl]; decide)]; rfl)
  | v1GuardFail hs hn hl hg =>
    refine (hrun _).trans ?_
    rw [commit_afterAdvance _ _ _ (by rw [hl]; decide), faSnapshot_eq]
    rfl
  | v2MarkOk hs hn hl hm =>
    refine (hrun _).trans ?_
    rw [commit_afterAdvance _ _ _ (by rw [hl]; decide),
      faPayload_append (acc := s.acc) (b := b) rfl (by simp [State.accLen] at hl; simp [hl, targetBits, Config.frameBits])
        (by decide)]
    rfl
  | v2MarkFail g hs hn hl hm hg =>
    refine (hrun _).trans ?_
    rw [commit_afterAdvance _ _ _ (by rw [hl]; decide), faSnapshot_eq]
    rfl
  | illVn hs hn => exact (hrun (fun _ _ => .error .illVn)).trans rfl
  | lWait hs hc hl => exact (hrun _).trans (by rw [commit_afterAdvance _ _ _ hc]; rfl)
  | lWaitFull hs hc => exact (hrun _).trans (by rw [commit_afterAdvance_full _ _ _ hc])
  | lMarkOk hs hl hm =>
    refine (hrun _).trans ?_
    rw [commit_afterAdvance _ _ _ (by rw [hl]; decide),
      faPayload_append (acc := s.acc) (b := b) rfl
        (by simp [State.accLen] at hl; simp [hl, targetBits, Config.frameBits, Config.lockedTarget]) (by decide)]
    rfl
  | lMarkFail g hs hl hm hg =>
    exact (hrun _).trans (by rw [commit_afterAdvance _ _ _ (by rw [hl]; decide)]; rfl)
  | illCn hs hn => exact (hrun (fun _ _ => .error .illCn)).trans rfl
  | cWait hs hn hc hl => exact (hrun _).trans (by rw [commit_afterAdvance _ _ _ hc]; rfl)
  | cWaitFull hs hn hc => exact (hrun _).trans (by rw [commit_afterAdvance_full _ _ _ hc])
  | c4MarkOk hs hn hl hm =>
    refine (hrun _).trans ?_
    rw [commit_afterAdvance _ _ _ (by rw [hl]; decide), recoverLock,
      faPayload_append (acc := s.acc) (b := b) rfl (by simp [State.accLen] at hl; simp [hl, targetBits, Config.frameBits])
        (by decide)]
    rfl
  | c4MarkFail g hs hn hl hm hg =>
    exact (hrun _).trans (by rw [commit_afterAdvance _ _ _ (by rw [hl]; decide)]; rfl)
  | c6MarkOk hs hn hl hm =>
    refine (hrun _).trans ?_
    rw [commit_afterAdvance _ _ _ (by rw [hl]; decide), recoverLock,
      faPayload_append (acc := s.acc) (b := b) rfl (by simp [State.accLen] at hl; simp [hl, targetBits, Config.frameBits])
        (by decide)]
    rfl
  | c6MarkFail g hs hn hl hm hg =>
    exact (hrun _).trans (by rw [commit_afterAdvance _ _ _ (by rw [hl]; decide)]; rfl)

/-- In every step some arm is taken (R81). -/
theorem exists_armCase (s : State) (b : Bit) : ∃ i t, ArmCase s b i t := by
  have accum : ∀ k, s.accLen + 1 = k ∨ (s.accLen + 1 ≠ k ∧ s.accLen < Config.accCap) ∨ Config.accCap ≤ s.accLen := by
    intro k; omega
  cases hs : s.state with
  | hunting =>
    by_cases hw : winNext b s = Config.marker
    · exact ⟨_, _, .hHit hs hw⟩
    · exact ⟨_, _, .hMiss hs hw⟩
  | verifying =>
    cases hn : s.nsel with
    | n1 =>
      rcases accum 256 with h | ⟨h, hc⟩ | hc
      · have hl : s.accLen = 255 := by omega
        obtain ⟨g, hg⟩ := accBit_some (s := s) (a := 249) (by omega)
        cases g
        · exact ⟨_, _, .v1GuardFail hs hn hl hg⟩
        · exact ⟨_, _, .v1GuardOk hs hn hl hg⟩
      · exact ⟨_, _, .vWait hs (by rw [hn]; rfl) hc (by rw [hn]; exact h)⟩
      · exact ⟨_, _, .vWaitFull hs (by rw [hn]; rfl) hc⟩
    | n2 =>
      rcases accum 512 with h | ⟨h, hc⟩ | hc
      · have hl : s.accLen = 511 := by omega
        obtain ⟨g, hg⟩ := accBit_some (s := s) (a := 505) (by omega)
        by_cases hm : (s.acc ++ [b]).drop 504 = markerSeq
        · exact ⟨_, _, .v2MarkOk hs hn hl hm⟩
        · exact ⟨_, _, .v2MarkFail g hs hn hl hm hg⟩
      · exact ⟨_, _, .vWait hs (by rw [hn]; rfl) hc (by rw [hn]; exact h)⟩
      · exact ⟨_, _, .vWaitFull hs (by rw [hn]; rfl) hc⟩
    | n4 => exact ⟨_, _, .illVn hs (by rw [hn]; rfl)⟩
    | n6 => exact ⟨_, _, .illVn hs (by rw [hn]; rfl)⟩
  | locked =>
    rcases accum 512 with h | ⟨h, hc⟩ | hc
    · have hl : s.accLen = 511 := by omega
      obtain ⟨g, hg⟩ := accBit_some (s := s) (a := 505) (by omega)
      by_cases hm : (s.acc ++ [b]).drop 504 = markerSeq
      · exact ⟨_, _, .lMarkOk hs hl hm⟩
      · exact ⟨_, _, .lMarkFail g hs hl hm hg⟩
    · exact ⟨_, _, .lWait hs hc h⟩
    · exact ⟨_, _, .lWaitFull hs hc⟩
  | lossCheck =>
    cases hn : s.nsel with
    | n1 => exact ⟨_, _, .illCn hs (by rw [hn]; rfl)⟩
    | n2 => exact ⟨_, _, .illCn hs (by rw [hn]; rfl)⟩
    | n4 =>
      rcases accum 1024 with h | ⟨h, hc⟩ | hc
      · have hl : s.accLen = 1023 := by omega
        obtain ⟨g, hg⟩ := accBit_some (s := s) (a := 1017) (by omega)
        by_cases hm : (s.acc ++ [b]).drop 1016 = markerSeq
        · exact ⟨_, _, .c4MarkOk hs hn hl hm⟩
        · exact ⟨_, _, .c4MarkFail g hs hn hl hm hg⟩
      · exact ⟨_, _, .cWait hs (by rw [hn]; rfl) hc (by rw [hn]; exact h)⟩
      · exact ⟨_, _, .cWaitFull hs (by rw [hn]; rfl) hc⟩
    | n6 =>
      rcases accum 1536 with h | ⟨h, hc⟩ | hc
      · have hl : s.accLen = 1535 := by omega
        obtain ⟨g, hg⟩ := accBit_some (s := s) (a := 1529) (by omega)
        by_cases hm : (s.acc ++ [b]).drop 1528 = markerSeq
        · exact ⟨_, _, .c6MarkOk hs hn hl hm⟩
        · exact ⟨_, _, .c6MarkFail g hs hn hl hm hg⟩
      · exact ⟨_, _, .cWait hs (by rw [hn]; rfl) hc (by rw [hn]; exact h)⟩
      · exact ⟨_, _, .cWaitFull hs (by rw [hn]; rfl) hc⟩

/-- The state logic takes the arm the selector names. -/
theorem ArmCase.stateLogic_eq (h : ArmCase s b i t) : stateLogic b s = exec i s := by
  have hsel := h.selected
  cases h with
  | hMiss hs hw => simp [stateLogic, hs, conds_hunting, hw, exec]
  | hHit hs hw => simp [stateLogic, hs, conds_hunting, hw, exec]
  | vWait hs hn hc hl =>
    rw [selected_vWait] at hsel
    rcases NSel.isLow_cases hn with hn | hn <;> simp [stateLogic, hs, hn, hsel.2.2, exec]
  | vWaitFull hs hn hc =>
    rw [selected_vWait] at hsel
    rcases NSel.isLow_cases hn with hn | hn <;> simp [stateLogic, hs, hn, hsel.2.2, exec]
  | v1GuardOk hs hn hl hg => rw [selected_v1GuardOk] at hsel; simp [stateLogic, hs, hn, hsel.2.2, exec]
  | v1GuardFail hs hn hl hg => rw [selected_v1GuardFail] at hsel; simp [stateLogic, hs, hn, hsel.2.2, exec]
  | v2MarkOk hs hn hl hm => rw [selected_v2MarkOk] at hsel; simp [stateLogic, hs, hn, hsel.2.2, exec]
  | v2MarkFail g hs hn hl hm hg => rw [selected_v2MarkFail] at hsel; simp [stateLogic, hs, hn, hsel.2.2, exec]
  | illVn hs hn => rcases NSel.isHigh_cases hn with hn | hn <;> simp [stateLogic, hs, hn, exec]
  | lWait hs hc hl => rw [selected_lWait] at hsel; simp [stateLogic, hs, hsel.2.2, exec]
  | lWaitFull hs hc => rw [selected_lWait] at hsel; simp [stateLogic, hs, hsel.2.2, exec]
  | lMarkOk hs hl hm => rw [selected_lMarkOk] at hsel; simp [stateLogic, hs, hsel.2.2, exec]
  | lMarkFail g hs hl hm hg => rw [selected_lMarkFail] at hsel; simp [stateLogic, hs, hsel.2.2, exec]
  | illCn hs hn => rcases NSel.isLow_cases hn with hn | hn <;> simp [stateLogic, hs, hn, exec]
  | cWait hs hn hc hl =>
    rw [selected_cWait] at hsel
    rcases NSel.isHigh_cases hn with hn | hn <;> simp [stateLogic, hs, hn, hsel.2.2, exec]
  | cWaitFull hs hn hc =>
    rw [selected_cWait] at hsel
    rcases NSel.isHigh_cases hn with hn | hn <;> simp [stateLogic, hs, hn, hsel.2.2, exec]
  | c4MarkOk hs hn hl hm => rw [selected_c4MarkOk] at hsel; simp [stateLogic, hs, hn, hsel.2.2, exec]
  | c4MarkFail g hs hn hl hm hg => rw [selected_c4MarkFail] at hsel; simp [stateLogic, hs, hn, hsel.2.2, exec]
  | c6MarkOk hs hn hl hm => rw [selected_c6MarkOk] at hsel; simp [stateLogic, hs, hn, hsel.2.2, exec]
  | c6MarkFail g hs hn hl hm hg => rw [selected_c6MarkFail] at hsel; simp [stateLogic, hs, hn, hsel.2.2, exec]

end

end Machine

end Sys2Proof
end

