-- ==== Sys2Proof/Laws/PerInstr.lean ====
section
/-! SUPPORT. Statements made of every instruction, one lemma per constructor: decoding an instruction's word gives it back. -/

namespace Sys2Proof.Laws.RoundTrip

/-- The decoder reads a well-formed instruction's word as that instruction. -/
def Statement (i : Instr) : Prop := i.wellFormed = true → decode (encode i) = .ok i

theorem hMiss (n : NSel) : Statement (.hMiss n) := by
  unfold Statement; cases n <;> decide

theorem hHit (n : NSel) : Statement (.hHit n) := by
  unfold Statement; cases n <;> decide

theorem vWait (n : NSel) : Statement (.vWait n) := by
  unfold Statement; cases n <;> decide

theorem v1GuardOk (x : Bit) : Statement (.v1GuardOk x) := by
  unfold Statement; cases x <;> decide

theorem v1GuardFail (x : Bit) : Statement (.v1GuardFail x) := by
  unfold Statement; cases x <;> decide

theorem v2MarkOk (x : Bit) : Statement (.v2MarkOk x) := by
  unfold Statement; cases x <;> decide

theorem v2MarkFail (x : Bit) : Statement (.v2MarkFail x) := by
  unfold Statement; cases x <;> decide

theorem illVn (n : NSel) (w : BitVec 4) : Statement (.illVn n w) := by
  intro h
  have hw : w = 0#4 := by simpa using (Bool.and_eq_true_iff.mp h).2
  subst hw
  revert h
  cases n <;> decide

theorem lWait (n : NSel) : Statement (.lWait n) := by
  unfold Statement; cases n <;> decide

theorem lMarkOk (n : NSel) (x : Bit) : Statement (.lMarkOk n x) := by
  unfold Statement; cases n <;> cases x <;> decide

theorem lMarkFail (n : NSel) (x : Bit) : Statement (.lMarkFail n x) := by
  unfold Statement; cases n <;> cases x <;> decide

theorem illCn (n : NSel) (w : BitVec 4) : Statement (.illCn n w) := by
  intro h
  have hw : w = 0#4 := by simpa using (Bool.and_eq_true_iff.mp h).2
  subst hw
  revert h
  cases n <;> decide

theorem cWait (n : NSel) : Statement (.cWait n) := by
  unfold Statement; cases n <;> decide

theorem c4MarkOk (x : Bit) : Statement (.c4MarkOk x) := by
  unfold Statement; cases x <;> decide

theorem c4MarkFail (x : Bit) : Statement (.c4MarkFail x) := by
  unfold Statement; cases x <;> decide

theorem c6MarkOk (x : Bit) : Statement (.c6MarkOk x) := by
  unfold Statement; cases x <;> decide

theorem c6MarkFail (x : Bit) : Statement (.c6MarkFail x) := by
  unfold Statement; cases x <;> decide

theorem bit0 : Statement (.bit0) := by
  unfold Statement; decide

theorem bit1 : Statement (.bit1) := by
  unfold Statement; decide

end Sys2Proof.Laws.RoundTrip
end

