-- ==== Sys2Proof/Laws/Ports.lean ====
section
/-! SUPPORT. The event ports' arguments against membership in the step's event list. -/

namespace Sys2Proof.Machine

/-- The events of the cycle are those of the step that closes it. -/
theorem cycleEvents_of_step {s t : State} (h : step s = .next t) : cycleEvents s = t.events := by
  simp [cycleEvents, h]

@[simp] theorem newStateOf_nil : newStateOf [] = none := rfl

@[simp] theorem newStateOf_stateChanged (S : AlignState) (evs : List Event) :
    newStateOf (.stateChanged S :: evs) = some S := rfl

@[simp] theorem newStateOf_payloadRecovered (q : BitSeq) (evs : List Event) :
    newStateOf (.payloadRecovered q :: evs) = newStateOf evs := rfl

@[simp] theorem payloadOf_nil : payloadOf [] = none := rfl

@[simp] theorem payloadOf_payloadRecovered (q : BitSeq) (evs : List Event) :
    payloadOf (.payloadRecovered q :: evs) = some q := rfl

@[simp] theorem payloadOf_stateChanged (S : AlignState) (evs : List Event) :
    payloadOf (.stateChanged S :: evs) = payloadOf evs := rfl

/-- There is a new state to show exactly when a `StateChanged` is among the events. -/
theorem newStateOf_isSome (evs : List Event) :
    (newStateOf evs).isSome = true ↔ ∃ S, Event.stateChanged S ∈ evs := by
  induction evs with
  | nil => simp
  | cons e evs ih => cases e <;> simp [ih]

/-- There is a payload to show exactly when a `PayloadRecovered` is among the events. -/
theorem payloadOf_isSome (evs : List Event) :
    (payloadOf evs).isSome = true ↔ ∃ q, Event.payloadRecovered q ∈ evs := by
  induction evs with
  | nil => simp
  | cons e evs ih => cases e <;> simp [ih]

end Sys2Proof.Machine
end

