-- ==== Sys2Proof/Laws/Step.lean ====
section
/-! SUPPORT. The inversions of `exec` and `step`, and `step` computed in each of its cases. -/

namespace Sys2Proof

/-- Two well-formed instructions of one word are one instruction. -/
theorem encode_inj {i j : Instr} (hi : i.wellFormed = true) (hj : j.wellFormed = true) (h : encode i = encode j) :
    i = j := by
  have rt : ∀ k : Instr, Laws.RoundTrip.Statement k := by
    intro k
    cases k with
    | hMiss n => exact Laws.RoundTrip.hMiss n
    | hHit n => exact Laws.RoundTrip.hHit n
    | vWait n => exact Laws.RoundTrip.vWait n
    | v1GuardOk x => exact Laws.RoundTrip.v1GuardOk x
    | v1GuardFail x => exact Laws.RoundTrip.v1GuardFail x
    | v2MarkOk x => exact Laws.RoundTrip.v2MarkOk x
    | v2MarkFail x => exact Laws.RoundTrip.v2MarkFail x
    | illVn n w => exact Laws.RoundTrip.illVn n w
    | lWait n => exact Laws.RoundTrip.lWait n
    | lMarkOk n x => exact Laws.RoundTrip.lMarkOk n x
    | lMarkFail n x => exact Laws.RoundTrip.lMarkFail n x
    | illCn n w => exact Laws.RoundTrip.illCn n w
    | cWait n => exact Laws.RoundTrip.cWait n
    | c4MarkOk x => exact Laws.RoundTrip.c4MarkOk x
    | c4MarkFail x => exact Laws.RoundTrip.c4MarkFail x
    | c6MarkOk x => exact Laws.RoundTrip.c6MarkOk x
    | c6MarkFail x => exact Laws.RoundTrip.c6MarkFail x
    | bit0 => exact Laws.RoundTrip.bit0
    | bit1 => exact Laws.RoundTrip.bit1
  have hd := (rt i hi).symm.trans ((congrArg decode h).trans (rt j hj))
  exact Except.ok.inj hd

namespace Machine

/-- Run as an arm: the arm is the one taken in the step. -/
theorem runArm_cases {i : Instr} {body : Bit → State → Except FaultCause State} {s t : State}
    (he : exec i s = runArm i body s) (h : exec i s = .next t) :
    ∃ b, nextBit s = some b ∧ ArmCase s b i t := by
  obtain ⟨b, hb, hw, hsel, -⟩ := runArm_next (he.symm.trans h)
  obtain ⟨j, u, hc⟩ := exists_armCase s b
  have hij : i = j := encode_inj hw hc.wellFormed (hsel.trans hc.selected.symm)
  subst hij
  have htu : t = u := by simpa using h.symm.trans (hc.exec_eq hb)
  exact ⟨b, hb, htu ▸ hc⟩

theorem stateLogic_cases {s t : State} {b : Bit} (hb : nextBit s = some b) (h : stateLogic b s = .next t) :
    ∃ j, ArmCase s b j t := by
  obtain ⟨j, u, hc⟩ := exists_armCase s b
  have htu : t = u := by simpa using h.symm.trans (hc.stateLogic_eq.trans (hc.exec_eq hb))
  exact ⟨j, htu ▸ hc⟩

theorem symbolStep_cases {s t : State} {b : Bit} (h : symbolStep b s = .next t) :
    nextBit s = some b ∧ ∃ j, ArmCase s b j t := by
  unfold symbolStep at h
  split at h
  · cases h
  · rename_i c hc
    split at h
    · rename_i hcb; subst hcb; exact ⟨hc, stateLogic_cases hc h⟩
    · cases h

/-- Everything `exec` can do when it answers a next state: the step's arm, by its own name or by its symbol's. -/
theorem exec_cases {i : Instr} {s t : State} (h : exec i s = .next t) :
    ∃ b j, nextBit s = some b ∧ ArmCase s b j t ∧ (j = i ∨ (i = .bit0 ∧ b = false) ∨ (i = .bit1 ∧ b = true)) := by
  cases i with
  | bit0 =>
    obtain ⟨hb, j, hc⟩ := symbolStep_cases h
    exact ⟨_, j, hb, hc, .inr (.inl ⟨rfl, rfl⟩)⟩
  | bit1 =>
    obtain ⟨hb, j, hc⟩ := symbolStep_cases h
    exact ⟨_, j, hb, hc, .inr (.inr ⟨rfl, rfl⟩)⟩
  | hMiss n =>
    obtain ⟨b, hb, hc⟩ := runArm_cases (body := fun b t => .ok (t.observe b).1) rfl h
    exact ⟨b, _, hb, hc, .inl rfl⟩
  | hHit n =>
    obtain ⟨b, hb, hc⟩ := runArm_cases (body := fun b t =>
      .ok ((((t.observe b).1.setState .verifying).setN .n1).faClear.emit (.stateChanged .verifying))) rfl h
    exact ⟨b, _, hb, hc, .inl rfl⟩
  | vWait n => obtain ⟨b, hb, hc⟩ := runArm_cases rfl h; exact ⟨b, _, hb, hc, .inl rfl⟩
  | v1GuardOk x => obtain ⟨b, hb, hc⟩ := runArm_cases rfl h; exact ⟨b, _, hb, hc, .inl rfl⟩
  | v1GuardFail x => obtain ⟨b, hb, hc⟩ := runArm_cases rfl h; exact ⟨b, _, hb, hc, .inl rfl⟩
  | v2MarkOk x => obtain ⟨b, hb, hc⟩ := runArm_cases rfl h; exact ⟨b, _, hb, hc, .inl rfl⟩
  | v2MarkFail x => obtain ⟨b, hb, hc⟩ := runArm_cases rfl h; exact ⟨b, _, hb, hc, .inl rfl⟩
  | illVn n w =>
    obtain ⟨b, hb, hc⟩ := runArm_cases (body := fun _ _ => .error .illVn) rfl h
    exact ⟨b, _, hb, hc, .inl rfl⟩
  | lWait n => obtain ⟨b, hb, hc⟩ := runArm_cases rfl h; exact ⟨b, _, hb, hc, .inl rfl⟩
  | lMarkOk n x => obtain ⟨b, hb, hc⟩ := runArm_cases rfl h; exact ⟨b, _, hb, hc, .inl rfl⟩
  | lMarkFail n x => obtain ⟨b, hb, hc⟩ := runArm_cases rfl h; exact ⟨b, _, hb, hc, .inl rfl⟩
  | illCn n w =>
    obtain ⟨b, hb, hc⟩ := runArm_cases (body := fun _ _ => .error .illCn) rfl h
    exact ⟨b, _, hb, hc, .inl rfl⟩
  | cWait n => obtain ⟨b, hb, hc⟩ := runArm_cases rfl h; exact ⟨b, _, hb, hc, .inl rfl⟩
  | c4MarkOk x => obtain ⟨b, hb, hc⟩ := runArm_cases rfl h; exact ⟨b, _, hb, hc, .inl rfl⟩
  | c4MarkFail x => obtain ⟨b, hb, hc⟩ := runArm_cases rfl h; exact ⟨b, _, hb, hc, .inl rfl⟩
  | c6MarkOk x => obtain ⟨b, hb, hc⟩ := runArm_cases rfl h; exact ⟨b, _, hb, hc, .inl rfl⟩
  | c6MarkFail x => obtain ⟨b, hb, hc⟩ := runArm_cases rfl h; exact ⟨b, _, hb, hc, .inl rfl⟩

/-- The symbol that stands for a bit. -/
theorem decodeSym_ofBool (b : Bit) : decodeSym (BitVec.ofBool b) = if b then .bit1 else .bit0 := by
  cases b <;> rfl

/-- A step that processes a bit runs the bit's symbol. -/
theorem step_of_bit {s : State} {b : Bit} (hb : nextBit s = some b) :
    step s = exec (if b then .bit1 else .bit0) s := by
  simp [step, fetchSymbol, hb, decodeSym_ofBool]

/-- The symbol of the step's bit is the state logic. -/
theorem exec_symbol {s : State} {b : Bit} (hb : nextBit s = some b) :
    exec (if b then .bit1 else .bit0) s = stateLogic b s := by
  cases b <;> simp [exec, execBit0, execBit1, symbolStep, hb]

/-- A step that processes a bit, by the arm it takes. -/
theorem step_of_armCase {s t : State} {b : Bit} {i : Instr} (hb : nextBit s = some b) (hc : ArmCase s b i t) :
    step s = .next t := by
  rw [step_of_bit hb, exec_symbol hb, hc.stateLogic_eq, hc.exec_eq hb]

theorem step_of_reset {s : State} (h : s.pins.rst = true) : step s = .next (resetCycle s) := by
  simp [step, fetchSymbol, nextBit, stepKind, h]

theorem step_of_halted {s : State} (hr : s.pins.rst = false) (hf : s.fault = true) :
    step s = .next (nextCycle s) := by
  simp [step, fetchSymbol, nextBit, stepKind, hr, hf]

theorem step_of_idle {s : State} (hr : s.pins.rst = false) (hf : s.fault = false) (hq : s.rq = [])
    (hv : s.pins.bitValid = false) : step s = .next (nextCycle s) := by
  simp [step, fetchSymbol, nextBit, stepKind, hr, hf, hq, hv]

/-- Everything a step can do: reset, a cycle without a bit, or one arm. -/
theorem step_cases {s t : State} (h : step s = .next t) :
    (s.pins.rst = true ∧ t = resetCycle s) ∨ (s.pins.rst = false ∧ nextBit s = none ∧ t = nextCycle s) ∨
      (s.pins.rst = false ∧ s.fault = false ∧ ∃ b i, nextBit s = some b ∧ ArmCase s b i t) := by
  cases hb : nextBit s with
  | none =>
    rcases nextBit_none hb with ⟨hr, -⟩ | ⟨hr, hf, -⟩ | ⟨hr, hf, hq, hv, -⟩
    · left; exact ⟨hr, by simpa using h.symm.trans (step_of_reset hr)⟩
    · right; left; exact ⟨hr, rfl, by simpa using h.symm.trans (step_of_halted hr hf)⟩
    · right; left; exact ⟨hr, rfl, by simpa using h.symm.trans (step_of_idle hr hf hq hv)⟩
  | some b =>
    obtain ⟨hr, hf, -⟩ := nextBit_cases hb
    obtain ⟨i, u, hc⟩ := exists_armCase s b
    have htu : t = u := by simpa using h.symm.trans (step_of_armCase hb hc)
    exact .inr (.inr ⟨hr, hf, b, i, rfl, htu ▸ hc⟩)

end Machine

end Sys2Proof
end

