-- ==== Sys2Proof/Laws/Window.lean ====
section
/-! SUPPORT. The sliding window as a vector: with the unused positions 0 (R24), observing a bit shifts it in. -/

namespace Sys2Proof.Machine

theorem octetVal_snoc (l : BitSeq) (b : Bit) : octetVal (l ++ [b]) = 2 * octetVal l + b.toNat := by
  simp [octetVal, List.foldl_append]

theorem ofNat_shiftIn : ∀ (v : BitVec 8) (b : Bit),
    BitVec.ofNat 8 (2 * v.toNat + b.toNat) = v <<< 1 ||| BitVec.setWidth 8 (BitVec.ofBool b) := by
  decide +kernel

/-- The value of the newest k bits of a window. -/
theorem octetVal_newest (k : Nat) (hk : k ≤ 8) (v : BitVec 8) : octetVal ((octetSeq v).drop (8 - k)) = v.toNat % 2 ^ k := by
  revert v
  interval_cases k <;> decide +kernel

theorem octetSeq_shiftIn : ∀ (v : BitVec 8) (b : Bit),
    octetSeq (v <<< 1 ||| BitVec.setWidth 8 (BitVec.ofBool b)) = (octetSeq v).drop 1 ++ [b] := by
  decide +kernel

@[simp] theorem octetSeq_length (v : BitVec 8) : (octetSeq v).length = 8 := rfl

/-- `WIN_LEN` grows to 8 and stays. -/
theorem winLenNext_toNat {s : State} (h : s.winLen.toNat ≤ 8) : (winLenNext s).toNat = min (s.winLen.toNat + 1) 8 := by
  unfold winLenNext
  generalize s.winLen = k at *
  revert k
  decide +kernel

/-- R101 on the vector. -/
theorem winNext_eq {s : State} (b : Bit) (h : windowWf s) :
    winNext b s = s.win <<< 1 ||| BitVec.setWidth 8 (BitVec.ofBool b) := by
  obtain ⟨h8, hw⟩ := h
  rw [winNext, ← ofNat_shiftIn]
  have lt_iff : s.winLen < 8#4 ↔ s.winLen.toNat < 8 := Iff.rfl
  have hseq := octetVal_newest s.winLen.toNat h8 s.win
  rw [Nat.mod_eq_of_lt hw] at hseq
  unfold windowNext
  split
  · rw [octetVal_snoc, State.windowSeq, hseq]
  · rename_i hge
    rw [lt_iff] at hge
    have h0 : 8 - s.winLen.toNat = 0 := by omega
    have h7 : octetVal ((octetSeq s.win).drop 1) = s.win.toNat % 2 ^ 7 := octetVal_newest 7 (by decide) s.win
    rw [octetVal_snoc, State.windowSeq, h0, List.drop_zero, h7]
    apply BitVec.eq_of_toNat_eq
    simp only [BitVec.toNat_ofNat]
    have := b.toNat_le
    omega

/-- The unused positions of the window stay 0. -/
theorem windowWf_next {s : State} (b : Bit) (h : windowWf s) :
    (winLenNext s).toNat ≤ 8 ∧ (winNext b s).toNat < 2 ^ (winLenNext s).toNat := by
  rw [winLenNext_toNat h.1]
  refine ⟨by omega, ?_⟩
  rw [winNext_eq b h, ← ofNat_shiftIn, BitVec.toNat_ofNat]
  obtain ⟨h8, hw⟩ := h
  have hb := b.toNat_le
  generalize s.winLen.toNat = k at *
  by_cases hk : k = 8
  · subst hk; exact Nat.mod_lt _ (by decide)
  · have : min (k + 1) 8 = k + 1 := by omega
    rw [this, Nat.pow_succ]
    exact lt_of_le_of_lt (Nat.mod_le _ _) (by omega)

/-- A window that equals the marker is full: its oldest bit is 1. -/
theorem winLen_of_marker {w : BitVec 8} {k : BitVec 4} (hk : k.toNat ≤ 8) (hw : w.toNat < 2 ^ k.toNat)
    (h : w = Config.marker) : k = 8#4 := by
  subst h
  revert k
  decide +kernel

/-- While the marker is being shifted out, no bit before the seventh completes it again (R46). -/
theorem shifted_not_marker : ∀ (k : Nat), k ≤ 5 → ∀ (w : BitVec 8) (b : Bit),
    w >>> k = Config.marker &&& (0xFF#8 >>> k) → w <<< 1 ||| BitVec.setWidth 8 (BitVec.ofBool b) ≠ Config.marker := by
  intro k hk
  interval_cases k <;> decide +kernel

theorem shifted_next : ∀ (k : Nat), k ≤ 6 → ∀ (w : BitVec 8) (b : Bit),
    w >>> k = Config.marker &&& (0xFF#8 >>> k) →
      (w <<< 1 ||| BitVec.setWidth 8 (BitVec.ofBool b)) >>> (k + 1) = Config.marker &&& (0xFF#8 >>> (k + 1)) := by
  intro k hk
  interval_cases k <;> decide +kernel

/-! A bit on its way through the window (R125). -/

theorem shiftIn_newest : ∀ (w : BitVec 8) (b : Bit),
    (w <<< 1 ||| BitVec.setWidth 8 (BitVec.ofBool b)).getLsbD 0 = b := by
  decide +kernel

theorem shiftIn_moves (j : Nat) (hj : j < 7) (w : BitVec 8) (b : Bit) :
    (w <<< 1 ||| BitVec.setWidth 8 (BitVec.ofBool b)).getLsbD (j + 1) = w.getLsbD j := by
  revert w b
  interval_cases j <;> decide +kernel

/-- A 1 that moves to octet index 2 or 1 of the window keeps it from being the marker. -/
theorem one_not_marker (j : Nat) (hj : j = 4 ∨ j = 5) (w : BitVec 8) (b : Bit) (h : w.getLsbD j = true) :
    w <<< 1 ||| BitVec.setWidth 8 (BitVec.ofBool b) ≠ Config.marker := by
  revert w b
  rcases hj with rfl | rfl <;> decide +kernel

end Sys2Proof.Machine
end

