-- ==== Sys2Proof/Laws/Run.lean ====
section
/-! SUPPORT. Runs: every step answers a next state, runs compose, and a stretch of offered bits that reaches no checkpoint is
appended whole. -/

namespace Sys2Proof.Machine

/-- Every step answers a next state. -/
theorem step_next (s : State) : ∃ t, step s = .next t := by
  cases hb : nextBit s with
  | none =>
    rcases nextBit_none hb with ⟨hr, -⟩ | ⟨hr, hf, -⟩ | ⟨hr, hf, hq, hv, -⟩
    · exact ⟨_, step_of_reset hr⟩
    · exact ⟨_, step_of_halted hr hf⟩
    · exact ⟨_, step_of_idle hr hf hq hv⟩
  | some b =>
    obtain ⟨i, u, hc⟩ := exists_armCase s b
    exact ⟨u, step_of_armCase hb hc⟩

theorem runFor_add (m k : Nat) : ∀ s,
    runFor (m + k) s = ((runFor m s).1 ++ (runFor k (runFor m s).2).1, (runFor k (runFor m s).2).2) := by
  induction m with
  | zero => intro s; simp [runFor]
  | succ m ih =>
    intro s
    obtain ⟨t, ht⟩ := step_next s
    rw [Nat.add_right_comm]
    simp only [runFor, ht, ih t, List.append_assoc]

theorem runFor_one {s t : State} (h : step s = .next t) : runFor 1 s = (t.events, t) := by
  simp [runFor, h]

/-- The block is ready and the bit b is offered, `rest` after it. -/
structure Offered (s : State) (b : Bit) (rest : List PortIn) : Prop where
  rq : s.rq = []
  fault : s.fault = false
  supply : s.supply = PortIn.offer b :: rest

theorem Offered.nextBit {s : State} {b : Bit} {rest : List PortIn} (h : Offered s b rest) :
    nextBit s = some b := by
  simp [Machine.nextBit, stepKind, State.pins, h.rq, h.fault, h.supply, PortIn.offer]

theorem Offered.nextSupply {s : State} {b : Bit} {rest : List PortIn} (h : Offered s b rest) :
    nextSupply s = rest := by
  simp [Machine.nextSupply, stepKind, State.pins, h.rq, h.fault, h.supply, PortIn.offer]

/-- A state of a legal pair whose next checkpoint is not before the buffer's length L + 1. -/
def WaitsTo (s : State) (L : Nat) : Prop :=
  s.accLen ≤ L ∧ L < 1536 ∧
    ((s.state = .verifying ∧ s.nsel = .n1 ∧ L = 255) ∨
      (s.state = .verifying ∧ s.nsel = .n2 ∧ 256 ≤ s.accLen ∧ L = 511) ∨ (s.state = .locked ∧ L = 511) ∨
      (s.state = .lossCheck ∧ s.nsel = .n4 ∧ L = 1023) ∨
      (s.state = .lossCheck ∧ s.nsel = .n6 ∧ 1024 ≤ s.accLen ∧ L = 1535))

/-- Offered bits that stop short of the checkpoint are appended, and nothing is emitted. -/
theorem run_wait (rest : List PortIn) (L : Nat) : ∀ (l : BitSeq) (s : State), WaitsTo s L → s.accLen + l.length ≤ L →
    s.rq = [] → s.fault = false → s.supply = l.map PortIn.offer ++ rest →
    runFor l.length s =
      ([], { s with acc := s.acc ++ l, supply := rest, events := if l = [] then s.events else [] }) := by
  intro l
  induction l with
  | nil => intro s hw hl hq hf hs; simp at hs; simp [runFor, ← hs]
  | cons b l ih =>
    intro s hw hl hq hf hs
    have ho : Offered s b (l.map PortIn.offer ++ rest) := ⟨hq, hf, by simpa using hs⟩
    have cap : Config.accCap = 1536 := rfl
    obtain ⟨hL, hL', h⟩ := hw
    simp only [List.length_cons] at hl
    have hst : step s = .next { s with
        supply := nextSupply s, events := [], rq := s.rq.tail, acc := s.acc ++ [b] } := by
      rcases h with ⟨h1, h2, h3⟩ | ⟨h1, h2, h4, h3⟩ | ⟨h1, h3⟩ | ⟨h1, h2, h3⟩ | ⟨h1, h2, h4, h3⟩
      · exact step_of_armCase ho.nextBit
          (.vWait h1 (by rw [h2]; rfl) (by omega) (by rw [h2]; simp only [NSel.val]; omega))
      · exact step_of_armCase ho.nextBit
          (.vWait h1 (by rw [h2]; rfl) (by omega) (by rw [h2]; simp only [NSel.val]; omega))
      · exact step_of_armCase ho.nextBit (.lWait h1 (by omega) (by omega))
      · exact step_of_armCase ho.nextBit
          (.cWait h1 (by rw [h2]; rfl) (by omega) (by rw [h2]; simp only [NSel.val]; omega))
      · exact step_of_armCase ho.nextBit
          (.cWait h1 (by rw [h2]; rfl) (by omega) (by rw [h2]; simp only [NSel.val]; omega))
    rw [ho.nextSupply, hq] at hst
    simp only [List.length_cons, runFor, hst]
    simp only [State.accLen] at hl hL h
    rw [ih]
    · simp [hq]
    · refine ⟨by simp [State.accLen]; omega, hL', ?_⟩
      simp only [State.accLen, List.length_append, List.length_singleton]
      rcases h with ⟨h1, h2, h3⟩ | ⟨h1, h2, h4, h3⟩ | ⟨h1, h3⟩ | ⟨h1, h2, h3⟩ | ⟨h1, h2, h4, h3⟩
      · exact .inl ⟨h1, h2, h3⟩
      · exact .inr (.inl ⟨h1, h2, by omega, h3⟩)
      · exact .inr (.inr (.inl ⟨h1, h3⟩))
      · exact .inr (.inr (.inr (.inl ⟨h1, h2, h3⟩)))
      · exact .inr (.inr (.inr (.inr ⟨h1, h2, by omega, h3⟩)))
    · simp only [State.accLen, List.length_append, List.length_singleton]; omega
    · rfl
    · exact hf
    · rfl

end Sys2Proof.Machine
end

