-- ==== Sys2Proof/Tests/Slice0.lean ====
section
/-! SUPPORT. Tests. Expected results are the vectors of `95_test_vectors.md` (T, B, A, Q, X, H and P with their numbers) or
words written out from the patterns of R80; each statement's hypotheses have a witness, `witness_` and its name. -/

namespace Sys2Proof.Tests

open Sys2Proof.Machine

-- One theorem is checked at a time: many checks in flight would each hold a thread.
set_option Elab.async false

/-! ## Helpers -/

def ones (k : Nat) : BitSeq := List.replicate k true

def zeros (k : Nat) : BitSeq := List.replicate k false

/-- `M7`, the first seven bits of the marker. -/
def m7 : BitSeq := [true, false, false, true, true, false, true]

/-- A state with the marker in the window, the bit b offered. -/
def live (S : AlignState) (n : NSel) (acc rq : BitSeq) (b : Bit) : State :=
  { State.reset with
    state := S, nsel := n, win := 0x9B#8, winLen := 8#4, acc := acc, rq := rq, supply := [PortIn.offer b] }

/-- A `HUNTING` state with a given window, the bit b offered. -/
def hunt (w : BitVec 8) (k : BitVec 4) (b : Bit) : State :=
  { State.reset with win := w, winLen := k, supply := [PortIn.offer b] }

/-- A state as section 2 of the vectors writes it, with the fault code and the events. -/
structure View where
  state : AlignState
  nsel : NSel
  win : BitVec 8
  winLen : BitVec 4
  accLen : Nat
  rqLen : Nat
  code : BitVec 3
  events : List Event
  deriving DecidableEq, Repr

def view (o : Out) : Option View :=
  match o with
  | .next t => some ⟨t.state, t.nsel, t.win, t.winLen, t.accLen, t.rqLen, t.faultCode, t.events⟩
  | .fault _ => none
  | .refused _ => none

def isNext (o : Out) : Bool :=
  match o with
  | .next _ => true
  | .fault _ => false
  | .refused _ => false

theorem exists_next {o : Out} (h : isNext o = true) : ∃ t, o = .next t := by
  cases o with
  | next t => exact ⟨t, rfl⟩
  | fault _ => cases h
  | refused _ => cases h

/-! ## Well-formedness: an ill-formed term for each check -/

theorem test_wellFormed_refuses :
    [Instr.vWait .n4, .v1GuardOk true, .v2MarkOk true, .illVn .n1 0#4, .illVn .n4 1#4, .lMarkOk .n1 true, .illCn .n4 0#4,
      .illCn .n1 8#4, .cWait .n2, .c4MarkOk true, .c6MarkOk true].all (fun i => !i.wellFormed) = true := by decide

theorem test_wellFormed_admits :
    [Instr.hMiss .n6, .hHit .n1, .vWait .n2, .v1GuardOk false, .v1GuardFail true, .v2MarkOk false, .v2MarkFail true,
      .illVn .n4 0#4, .lWait .n4, .lMarkOk .n6 false, .lMarkFail .n2 true, .illCn .n2 0#4, .cWait .n6, .c4MarkOk false,
      .c4MarkFail true, .c6MarkOk false, .c6MarkFail true, .bit0, .bit1].all Instr.wellFormed = true := by decide

/-! ## Decoding: words written out from the patterns of R80 and R73 -/

theorem test_decode_hunting :
    decodeTableWord 8 0b00010000 = some (.hMiss .n2) ∧ decodeTableWord 8 0b00110001 = some (.hHit .n6) := by decide

theorem test_decode_verifying :
    decodeTableWord 8 0b01010000 = some (.vWait .n2) ∧ decodeTableWord 8 0b01001010 = some (.v1GuardOk false) ∧
    decodeTableWord 8 0b01001100 = some (.v1GuardFail true) ∧ decodeTableWord 8 0b01001000 = some (.v1GuardFail false) := by
  decide

theorem test_decode_verifying2 :
    decodeTableWord 8 0b01011100 = some (.v2MarkOk false) ∧ decodeTableWord 8 0b01011010 = some (.v2MarkFail true) ∧
    decodeTableWord 8 0b01100000 = some (.illVn .n4 0#4) ∧ decodeTableWord 8 0b01110000 = some (.illVn .n6 0#4) := by
  decide

theorem test_decode_locked :
    decodeTableWord 8 0b10000000 = some (.lWait .n1) ∧ decodeTableWord 8 0b10101100 = some (.lMarkOk .n4 false) ∧
    decodeTableWord 8 0b10001010 = some (.lMarkFail .n1 true) := by decide

theorem test_decode_lossCheck :
    decodeTableWord 8 0b11110000 = some (.cWait .n6) ∧ decodeTableWord 8 0b11101100 = some (.c4MarkOk false) ∧
    decodeTableWord 8 0b11101000 = some (.c4MarkFail false) ∧ decodeTableWord 8 0b11010000 = some (.illCn .n2 0#4) := by
  decide

theorem test_decode_lossCheck6 :
    decodeTableWord 8 0b11111100 = some (.c6MarkOk false) ∧ decodeTableWord 8 0b11111010 = some (.c6MarkFail true) := by
  decide

theorem test_decode_symbols : decodeTableWord 1 0 = some .bit0 ∧ decodeTableWord 1 1 = some .bit1 := by decide

/-- R83: no row; `MK` = `GD` = 1; a condition bit of an illegal pair; and words too long for their format. -/
theorem test_decode_refuses :
    [0b00000010, 0b11100001, 0b01001110, 0b10001110, 0b01100001, 0b11001000, 256].all
      (fun w => (decodeTableWord 8 w).isNone) = true := by decide

/-- The words placed for the next step are the ones it runs (R75): a hit, a checkpoint of n = 1 and an illegal pair. -/
theorem test_withFetchWord_sel :
    [0b00110001, 0b01001010, 0b11010000].all (fun w =>
      match nextBit (State.reset.withFetchWord 8 w) with
      | some b => selector (State.reset.withFetchWord 8 w) b == BitVec.ofNat 8 w
      | none => false) = true := by decide +kernel

theorem test_withFetchWord_sym :
    fetchSymbol (State.reset.withFetchWord 1 0) = some 0#1 ∧ fetchSymbol (State.reset.withFetchWord 1 1) = some 1#1 := by
  decide

/-! ## The sub-blocks (section 2.1 to 2.3) -/

/-- B1, B3, B5, B6, B7, B10. -/
theorem test_observe :
    [(0x00#8, 0#4, true), (0x4D, 8, true), (0x4D, 7, true), (0xCD, 8, true), (0x1B, 5, true), (0xFF, 8, true)].map
      (fun x => let r := (hunt x.1 x.2.1 false).observe x.2.2; (r.1.win, r.1.winLen, r.2)) =
    [(0x01, 1, false), (0x9B, 8, true), (0x9B, 8, true), (0x9B, 8, true), (0x37, 6, false), (0xFF, 8, false)] := by decide

/-- A2, A3, A8: no checkpoint at 255 or at 1024 with T = 6, a checkpoint at 256. -/
theorem test_advance :
    [(254, 1), (255, 1), (1023, 6)].map (fun x =>
      match (live .verifying .n1 (zeros x.1) [] true).faAdvance x.2 true with
      | .ok (t, k, o) => some (t.accLen, k, o.isSome)
      | .error _ => none) = [some (255, 0, false), some (256, 1, true), some (1024, 0, false)] := by decide +kernel

/-- Q2, Q4, Q5. -/
theorem test_queue :
    ((live .hunting .n1 [] [true, false, true] true).rqPop.map (fun r => (r.1, r.2.rq))) = some (true, [false, true]) ∧
    ((live .hunting .n1 [] [true, true, true] true).rqEnqueueAll [false, false]).rq = [false, false] ∧
    (live .hunting .n1 [] [true, false] true).rqClear.rq = [] := by decide

/-! ## The arms (section 2.4) -/

/-- T2. -/
theorem test_hMiss : view (exec (.hMiss .n1) (hunt 0x4D#8 8#4 false)) = some ⟨.hunting, .n1, 0x9A, 8, 0, 0, 0, []⟩ := by decide

/-- T3. -/
theorem test_hHit : view (exec (.hHit .n1) (hunt 0x4D#8 8#4 true)) =
    some ⟨.verifying, .n1, 0x9B, 8, 0, 0, 0, [.stateChanged .verifying]⟩ := by decide

/-- T5: the buffer is cleared and n forced to 1. -/
theorem test_hHit_defensive :
    view (exec (.hHit .n6) { hunt 0x4D#8 8#4 true with nsel := .n6, acc := ones 5 }) =
    some ⟨.verifying, .n1, 0x9B, 8, 0, 0, 0, [.stateChanged .verifying]⟩ := by decide

/-- T7. -/
theorem test_vWait : view (exec (.vWait .n1) (live .verifying .n1 (zeros 254) [] true)) =
    some ⟨.verifying, .n1, 0x9B, 8, 255, 0, 0, []⟩ := by decide +kernel

/-- T9: no checkpoint past the target. -/
theorem test_vWait_past : view (exec (.vWait .n1) (live .verifying .n1 (zeros 300) [] false)) =
    some ⟨.verifying, .n1, 0x9B, 8, 301, 0, 0, []⟩ := by decide +kernel

/-- T10: the octet is `0x40`. -/
theorem test_v1GuardOk :
    view (exec (.v1GuardOk false) (live .verifying .n1 (zeros 249 ++ [true] ++ zeros 5) [] false)) =
    some ⟨.verifying, .n2, 0x9B, 8, 256, 0, 0, []⟩ := by decide +kernel

/-- T13: the octet is the marker, whose element 1 is 0. -/
theorem test_v1GuardFail_marker : view (exec (.v1GuardFail true) (live .verifying .n1 (zeros 248 ++ m7) [] true)) =
    some ⟨.hunting, .n1, 0x9B, 8, 0, 256, 0, [.stateChanged .hunting]⟩ := by decide +kernel

/-- T15: the two bits queued behind the replayed one are gone. -/
theorem test_v1GuardFail_replaces :
    view (exec (.v1GuardFail false) (live .verifying .n1 (zeros 255) [false, true, true] true)) =
    some ⟨.hunting, .n1, 0x9B, 8, 0, 256, 0, [.stateChanged .hunting]⟩ := by decide +kernel

/-- T16. -/
theorem test_v2MarkOk : view (exec (.v2MarkOk false) (live .verifying .n2 (ones 504 ++ m7) [] true)) =
    some ⟨.locked, .n1, 0x9B, 8, 0, 0, 0, [.payloadRecovered (ones 504), .stateChanged .locked]⟩ := by decide +kernel

/-- T18: the octet is `0xD4`; at n = 2 the guard bit does not count. -/
theorem test_v2MarkFail :
    view (exec (.v2MarkFail true)
      (live .verifying .n2 (ones 504 ++ [true, true, false, true, false, true, false]) [] false)) =
    some ⟨.hunting, .n1, 0x9B, 8, 0, 512, 0, [.stateChanged .hunting]⟩ := by decide +kernel

/-- X1. -/
theorem test_illVn : view (exec (.illVn .n4 0#4) (live .verifying .n4 (zeros 10) [] true)) =
    some ⟨.verifying, .n4, 0x9B, 8, 10, 0, 1, []⟩ := by decide

/-- T21: no checkpoint at 256 in `LOCKED`. -/
theorem test_lWait : view (exec (.lWait .n1) (live .locked .n1 (zeros 255) [] true)) =
    some ⟨.locked, .n1, 0x9B, 8, 256, 0, 0, []⟩ := by decide +kernel

/-- T24: n is neither read nor written. -/
theorem test_lMarkOk : view (exec (.lMarkOk .n4 false) (live .locked .n4 (ones 504 ++ m7) [] true)) =
    some ⟨.locked, .n4, 0x9B, 8, 0, 0, 0, [.payloadRecovered (ones 504)]⟩ := by decide +kernel

/-- T23: the buffer is kept. -/
theorem test_lMarkFail : view (exec (.lMarkFail .n1 false) (live .locked .n1 (ones 504 ++ m7) [] false)) =
    some ⟨.lossCheck, .n4, 0x9B, 8, 512, 0, 0, [.stateChanged .lossCheck]⟩ := by decide +kernel

/-- T31: a marker at length 1024 is not looked at when n = 6. -/
theorem test_cWait : view (exec (.cWait .n6) (live .lossCheck .n6 (ones 1016 ++ m7) [] true)) =
    some ⟨.lossCheck, .n6, 0x9B, 8, 1024, 0, 0, []⟩ := by decide +kernel

/-- T32: the queue is left untouched but for the pop of the step's own bit. -/
theorem test_c4MarkOk : view (exec (.c4MarkOk false) (live .lossCheck .n4 (ones 1016 ++ m7) [true, true, false] true)) =
    some ⟨.locked, .n1, 0x9B, 8, 0, 2, 0, [.payloadRecovered (ones 1016), .stateChanged .locked]⟩ := by decide +kernel

/-- T28. -/
theorem test_c4MarkFail : view (exec (.c4MarkFail false) (live .lossCheck .n4 (ones 1016 ++ m7) [] false)) =
    some ⟨.lossCheck, .n6, 0x9B, 8, 1024, 0, 0, []⟩ := by decide +kernel

/-- T29. -/
theorem test_c6MarkOk : view (exec (.c6MarkOk false) (live .lossCheck .n6 (ones 1528 ++ m7) [] true)) =
    some ⟨.locked, .n1, 0x9B, 8, 0, 0, 0, [.payloadRecovered (ones 1528), .stateChanged .locked]⟩ := by decide +kernel

/-- T33: the queue is cleared. -/
theorem test_c6MarkFail : view (exec (.c6MarkFail false) (live .lossCheck .n6 (ones 1528 ++ m7) [false, true, true] true)) =
    some ⟨.hunting, .n1, 0x9B, 8, 0, 0, 0, [.stateChanged .hunting]⟩ := by decide +kernel

/-- R158. -/
theorem test_illCn : view (exec (.illCn .n1 0#4) (live .lossCheck .n1 [] [] true)) =
    some ⟨.lossCheck, .n1, 0x9B, 8, 0, 0, 2, []⟩ := by decide

/-- R172: a replayed 0 is popped and observed. -/
theorem test_bit0 : view (exec .bit0 (live .hunting .n1 [] [false, true] true)) =
    some ⟨.hunting, .n1, 0x36, 8, 0, 1, 0, []⟩ := by decide

/-- T1, and the other symbol refused. -/
theorem test_bit1 : view (exec .bit1 (hunt 0x00#8 0#4 true)) = some ⟨.hunting, .n1, 0x01, 1, 0, 0, 0, []⟩ ∧
    isNext (exec .bit0 (hunt 0x00#8 0#4 true)) = false := by decide

/-! ## Steps without a bit, and faults (section 2.5) -/

/-- R115 in each of the three waiting arms: the buffer is full. -/
theorem test_overflow :
    [live .verifying .n1 (ones 1536) [] true, live .locked .n1 (ones 1536) [] true, live .lossCheck .n6 (ones 1536) [] true].map
      (fun s => (view (step s)).map (fun v => (v.accLen, v.code))) =
    [some (1536, 3), some (1536, 3), some (1536, 3)] := by decide +kernel

/-- R172, R190: a fault in a `REPLAY` step leaves the head in the queue. -/
theorem test_fault_keeps_head : view (step (live .verifying .n6 [] [true, false] true)) =
    some ⟨.verifying, .n6, 0x9B, 8, 0, 2, 1, []⟩ := by decide

/-- R191, R200: a halted block takes no step, and reset ends the fault. -/
theorem test_halted_then_reset :
    view (step { live .locked .n1 [true] [] true with fault := true, faultCode := 3#3 }) =
      some ⟨.locked, .n1, 0x9B, 8, 1, 0, 3, []⟩ ∧
    view (step { live .locked .n1 [true] [] true with fault := true, supply := [PortIn.reset] }) =
      some ⟨.hunting, .n1, 0x00, 0, 0, 0, 0, []⟩ := by decide

/-- R177 b: an offer not taken is held, through pauses and a reset, and the next offer waits behind it. -/
theorem test_holdOffer :
    holdOffer [PortIn.offer true, PortIn.reset] = [⟨true, true, true⟩] ∧
    holdOffer [PortIn.offer true, PortIn.pause, PortIn.pause] = [PortIn.offer true, PortIn.pause] ∧
    holdOffer [PortIn.offer true, PortIn.offer false] = [PortIn.offer true, PortIn.offer false] ∧
    holdOffer [PortIn.pause, PortIn.offer false] = [PortIn.offer false] := by decide

/-! ## Witnesses: the hypotheses of each statement are met -/

theorem witness_ResetRestoresAnyState : { live .locked .n1 [] [] true with supply := [PortIn.reset] }.pins.rst = true := by
  decide

theorem witness_HaltedUntilReset :
    let s := { live .locked .n1 [] [true] true with fault := true }
    (s.fault = true ∧ s.pins.rst = false) ∧ ({ s with supply := [PortIn.reset] }.pins.rst = true) := by decide

theorem witness_StepSelectionPriority :
    let s := live .verifying .n1 [] [] true
    (s.pins.rst = false ∧ { s with fault := true }.fault = true) ∧ (s.fault = false ∧ { s with rq := [true] }.rq = true :: []) ∧
      (s.rq = [] ∧ s.pins.bitValid = true) ∧ ({ s with supply := [] }.pins.rst = false ∧ { s with supply := [] }.pins.bitValid = false) := by
  decide

theorem witness_StepRunsDecodedSymbol :
    (fetchSymbol (live .locked .n1 [] [] true) = some 1#1 ∧ (decode (.sym 1#1)).toOption = some .bit1 ∧
      Instr.bit1.wellFormed = true) ∧ fetchSymbol State.reset = none := by decide

theorem witness_StepRunsSelectedArm : nextBit (live .lossCheck .n4 (zeros 600) [] true) = some true := by decide

theorem witness_SymbolsCompleteAsStateLogic :
    nextBit (live .locked .n1 [] [] false) = some false ∧ nextBit (live .hunting .n1 [] [true] false) = some true := by
  decide

theorem witness_OfferIsTakenOnlyByAccept :
    let s := live .hunting .n1 [] [true] true
    ((∃ t, exec .bit1 s = .next t) ∧ s.rq ≠ [] ∧ s.pins.bitValid = true) ∧
    ((∃ t, exec .bit1 { s with supply := [PortIn.pause] } = .next t) ∧
      { s with supply := [PortIn.pause] }.pins.bitValid = false) ∧
    (∃ t, exec .bit1 { s with rq := [] } = .next t) :=
  ⟨⟨exists_next (by decide), by decide, by decide⟩, ⟨exists_next (by decide), by decide⟩, exists_next (by decide)⟩

theorem witness_ExecRefusesWhatTheStepDoesNotRun :
    nextBit State.reset = none ∧
    (nextBit (live .locked .n1 [] [] true) = some true ∧ Instr.hHit .n1 ≠ .bit0 ∧ Instr.hHit .n1 ≠ .bit1 ∧
      (decode (.sel (selector (live .locked .n1 [] [] true) true))).toOption ≠ some (.hHit .n1)) := by decide

theorem witness_ReplayedAndLiveBitsAreTreatedAlike :
    let s := { live .hunting .n1 [] [true] true with supply := [] }
    let u := live .hunting .n1 [] [] true
    s.pins.rst = false ∧ u.pins.rst = false ∧ s.fault = false ∧ sameRegisters { s with rq := [] } u ∧ s.rq = [true] ∧
      u.pins.bitValid = true ∧ u.pins.bitIn = true ∧ (∃ s', step s = .next s' ∧ s'.fault = false) ∧
      ∃ u', step u = .next u' := by
  refine ⟨by decide, by decide, by decide, by decide, by decide, by decide, by decide, ⟨_, rfl, by decide⟩, ⟨_, rfl⟩⟩

theorem witness_ReadyExactlyWhenBitIsAccepted :
    (live .locked .n1 [] [] true).pins.rst = false ∧ (live .locked .n1 [] [] true).pins.bitValid = true := by decide

theorem witness_HMissOnlyUpdatesWindow :
    nextBit (hunt 0x4D#8 8#4 false) = some false ∧ (hunt 0x4D#8 8#4 false).state = .hunting ∧
      winNext false (hunt 0x4D#8 8#4 false) ≠ 0x9B#8 := by decide

theorem witness_HHitEntersVerifying :
    nextBit (hunt 0x4D#8 7#4 true) = some true ∧ (hunt 0x4D#8 7#4 true).state = .hunting ∧
      winNext true (hunt 0x4D#8 7#4 true) = 0x9B#8 := by decide

/-- One bit short of the two checkpoints, past a checkpoint, and at the full buffer. -/
theorem witness_VWaitAppendsOneBit :
    (nextBit (live .verifying .n1 (zeros 254) [] true) = some true ∧ (zeros 254).length < 1536 ∧
      (zeros 254).length + 1 ≠ NSel.n1.val * 256) ∧
    (nextBit (live .verifying .n2 (zeros 1535) [] true) = some true ∧ (zeros 1535).length < 1536 ∧
      (zeros 1535).length + 1 ≠ NSel.n2.val * 256) ∧
    (nextBit (live .verifying .n2 (zeros 1536) [] true) = some true ∧ (live .verifying .n2 (zeros 1536) [] true).accLen = 1536) := by
  decide +kernel

theorem witness_CWaitAppendsOneBit :
    (nextBit (live .lossCheck .n4 (zeros 1022) [] true) = some true ∧ (zeros 1022).length < 1536 ∧
      (zeros 1022).length + 1 ≠ NSel.n4.val * 256) ∧
    (nextBit (live .lossCheck .n6 (zeros 1536) [] true) = some true ∧ (live .lossCheck .n6 (zeros 1536) [] true).accLen = 1536) := by
  decide +kernel

theorem witness_LWaitAppendsOneBit :
    (nextBit (live .locked .n2 (zeros 510) [] true) = some true ∧ (zeros 510).length < 1536 ∧ (zeros 510).length + 1 ≠ 512) ∧
    (nextBit (live .locked .n2 (zeros 1536) [] true) = some true ∧ (live .locked .n2 (zeros 1536) [] true).accLen = 1536) := by
  decide +kernel

theorem witness_V1GuardOkKeepsBuffer :
    let s := live .verifying .n1 (zeros 249 ++ [true] ++ zeros 5) [] false
    nextBit s = some false ∧ s.state = .verifying ∧ s.nsel = .n1 ∧ s.accLen = 255 ∧ s.accBit 249 = some true := by
  decide +kernel

theorem witness_V1GuardFailReplaysBuffer :
    let s := live .verifying .n1 (zeros 248 ++ m7) [] true
    nextBit s = some true ∧ s.state = .verifying ∧ s.nsel = .n1 ∧ s.accLen = 255 ∧ s.accBit 249 = some false := by
  decide +kernel

theorem witness_V2MarkOkLocks :
    let s := live .verifying .n2 (ones 504 ++ m7) [] true
    nextBit s = some true ∧ s.state = .verifying ∧ s.nsel = .n2 ∧ s.accLen = 511 ∧
      (s.acc ++ [true]).drop 504 = markerSeq := by
  decide +kernel

theorem witness_V2MarkFailReplaysBuffer :
    let s := live .verifying .n2 (ones 504 ++ m7) [] false
    nextBit s = some false ∧ s.state = .verifying ∧ s.nsel = .n2 ∧ s.accLen = 511 ∧
      (s.acc ++ [false]).drop 504 ≠ markerSeq ∧ s.accBit 505 = some false := by
  decide +kernel

theorem witness_LMarkOkEmitsPayloadAndStays :
    let s := live .locked .n6 (ones 504 ++ m7) [] true
    nextBit s = some true ∧ s.state = .locked ∧ s.accLen = 511 ∧ (s.acc ++ [true]).drop 504 = markerSeq := by
  decide +kernel

theorem witness_LMarkFailEntersLossCheckWithBuffer :
    let s := live .locked .n1 (ones 511) [] true
    nextBit s = some true ∧ s.state = .locked ∧ s.accLen = 511 ∧ (s.acc ++ [true]).drop 504 ≠ markerSeq ∧
      s.accBit 505 = some true := by
  decide +kernel

theorem witness_C4MarkOkRecoversLock :
    let s := live .lossCheck .n4 (ones 1016 ++ m7) [] true
    nextBit s = some true ∧ s.state = .lossCheck ∧ s.nsel = .n4 ∧ s.accLen = 1023 ∧
      (s.acc ++ [true]).drop 1016 = markerSeq := by
  decide +kernel

theorem witness_C6MarkOkRecoversLock :
    let s := live .lossCheck .n6 (ones 1528 ++ m7) [] true
    nextBit s = some true ∧ s.state = .lossCheck ∧ s.nsel = .n6 ∧ s.accLen = 1535 ∧
      (s.acc ++ [true]).drop 1528 = markerSeq := by
  decide +kernel

theorem witness_C4MarkFailGivesSecondChance :
    let s := live .lossCheck .n4 (ones 1023) [] true
    nextBit s = some true ∧ s.state = .lossCheck ∧ s.nsel = .n4 ∧ s.accLen = 1023 ∧
      (s.acc ++ [true]).drop 1016 ≠ markerSeq ∧ s.accBit 1017 = some true := by
  decide +kernel

theorem witness_C6MarkFailDiscardsAndHunts :
    let s := live .lossCheck .n6 (ones 1528 ++ m7) [] false
    nextBit s = some false ∧ s.state = .lossCheck ∧ s.nsel = .n6 ∧ s.accLen = 1535 ∧
      (s.acc ++ [false]).drop 1528 ≠ markerSeq ∧ s.accBit 1529 = some false := by
  decide +kernel

theorem witness_IllVnRaisesFault :
    nextBit (live .verifying .n6 [] [] true) = some true ∧ (live .verifying .n6 [] [] true).nsel = .n6 ∧
      nextBit (live .verifying .n4 [] [] true) = some true ∧ (live .verifying .n4 [] [] true).nsel = .n4 := by decide

theorem witness_IllCnRaisesFault :
    nextBit (live .lossCheck .n1 [] [] true) = some true ∧ (live .lossCheck .n1 [] [] true).nsel = .n1 ∧
      nextBit (live .lossCheck .n2 [] [] true) = some true ∧ (live .lossCheck .n2 [] [] true).nsel = .n2 := by decide

theorem witness_FullBufferRaisesAccOverflow :
    let s := live .locked .n1 (zeros 1536) [] true
    nextBit s = some true ∧ s.state ≠ .hunting ∧ illegalPair s.state s.nsel = false ∧ s.accLen = 1536 := by
  decide +kernel

/-- Each clause: the two illegal pairs, a full buffer, and neither (with a full buffer in `HUNTING`, and one bit short). -/
theorem witness_FaultRaisedExactlyWhenListed :
    (∃ t, step (live .verifying .n4 (zeros 1536) [] true) = .next t) ∧
    (∃ t, step (live .lossCheck .n2 [] [] true) = .next t) ∧
    (∃ t, step (live .locked .n1 (zeros 1536) [] true) = .next t) ∧
    (∃ t, step (live .hunting .n1 (zeros 1536) [] true) = .next t) ∧
    (∃ t, step (live .lossCheck .n6 (zeros 1535) [] true) = .next t) ∧
    Memory.wf (live .lossCheck .n6 (zeros 1535) [] true) ∧ Memory.wf (live .locked .n1 (zeros 1536) [] true) :=
  ⟨step_next _, step_next _, step_next _, step_next _, step_next _, by decide +kernel, by decide +kernel⟩

theorem witness_FaultsArePrecise :
    ∃ t, step (live .verifying .n4 [true] [true] true) = .next t ∧ (live .verifying .n4 [true] [true] true).fault = false ∧
      t.fault = true :=
  ⟨_, rfl, by decide, by decide⟩

theorem witness_WindowChangesOnlyInHunting :
    (∃ t, exec (.lWait .n1) (live .locked .n1 [] [] true) = .next t) ∧ (live .locked .n1 [] [] true).state ≠ .hunting :=
  ⟨exists_next (by decide), by decide⟩

/-- Each arm, and the two clauses on the length. -/
theorem witness_WaitArmsFrame :
    (∃ t, exec (.vWait .n1) (live .verifying .n1 [] [] true) = .next t) ∧
    (∃ t, exec (.lWait .n1) (live .locked .n1 (zeros 1535) [] true) = .next t) ∧
    (∃ t, exec (.cWait .n6) (live .lossCheck .n6 (zeros 1536) [] true) = .next t) :=
  ⟨exists_next (by decide), exists_next (by decide +kernel), exists_next (by decide +kernel)⟩

theorem witness_KeepingArmsFrame :
    (∃ t, exec (.v1GuardOk false) (live .verifying .n1 (ones 255) [] true) = .next t) ∧
    (∃ t, exec (.lMarkFail .n1 true) (live .locked .n1 (ones 511) [] true) = .next t) ∧
    (∃ t, exec (.c4MarkFail true) (live .lossCheck .n4 (ones 1023) [] true) = .next t) :=
  ⟨exists_next (by decide +kernel), exists_next (by decide +kernel), exists_next (by decide +kernel)⟩

theorem witness_PayloadArmsFrame :
    (∃ t, exec (.v2MarkOk false) (live .verifying .n2 (ones 504 ++ m7) [] true) = .next t) ∧
    (∃ t, exec (.lMarkOk .n1 false) (live .locked .n1 (ones 504 ++ m7) [] true) = .next t) ∧
    (∃ t, exec (.c4MarkOk false) (live .lossCheck .n4 (ones 1016 ++ m7) [] true) = .next t) ∧
    (∃ t, exec (.c6MarkOk false) (live .lossCheck .n6 (ones 1528 ++ m7) [] true) = .next t) :=
  ⟨exists_next (by decide +kernel), exists_next (by decide +kernel), exists_next (by decide +kernel),
    exists_next (by decide +kernel)⟩

theorem witness_FailingArmsFrame :
    (∃ t, exec (.v1GuardFail false) (live .verifying .n1 (zeros 255) [] true) = .next t) ∧
    (∃ t, exec (.v2MarkFail true) (live .verifying .n2 (ones 511) [] true) = .next t) ∧
    (∃ t, exec (.c6MarkFail true) (live .lossCheck .n6 (ones 1535) [] true) = .next t) :=
  ⟨exists_next (by decide +kernel), exists_next (by decide +kernel), exists_next (by decide +kernel)⟩

theorem witness_HuntingArmsFrame :
    (∃ t, exec (.hMiss .n1) (hunt 0x4D#8 8#4 false) = .next t) ∧ (∃ t, exec (.hHit .n1) (hunt 0x4D#8 8#4 true) = .next t) :=
  ⟨exists_next (by decide), exists_next (by decide)⟩

theorem witness_IllegalArmsFrame :
    (∃ t, exec (.illVn .n6 0#4) (live .verifying .n6 [] [] true) = .next t) ∧
    (∃ t, exec (.illCn .n1 0#4) (live .lossCheck .n1 [] [] true) = .next t) :=
  ⟨exists_next (by decide), exists_next (by decide)⟩

theorem witness_EventsExactlyWhenListed :
    ((∃ t, step { State.reset with supply := [PortIn.reset] } = .next t) ∧
      { State.reset with supply := [PortIn.reset] }.pins.rst = true) ∧
    ((∃ t, step (hunt 0x4D#8 8#4 true) = .next t) ∧ (hunt 0x4D#8 8#4 true).pins.rst = false) :=
  ⟨⟨step_next _, by decide⟩, step_next _, by decide⟩

theorem witness_PayloadEventComesFirst :
    (∃ t, step (live .verifying .n2 (ones 504 ++ m7) [] true) = .next t) ∧
    ∃ t, step (live .verifying .n4 [] [] true) = .next t ∧ t.fault = true :=
  ⟨step_next _, _, rfl, by decide⟩

theorem witness_PayloadIsBufferLessMarker :
    ∃ t, step (live .locked .n1 (ones 504 ++ m7) [] true) = .next t ∧ Event.payloadRecovered (ones 504) ∈ t.events := by
  obtain ⟨t, ht⟩ := step_next (live .locked .n1 (ones 504 ++ m7) [] true)
  have h : (view (step (live .locked .n1 (ones 504 ++ m7) [] true))).map View.events = some [.payloadRecovered (ones 504)] := by
    decide +kernel
  rw [ht] at h
  have he : t.events = [.payloadRecovered (ones 504)] := Option.some.inj h
  exact ⟨t, ht, by rw [he]; exact List.mem_singleton.mpr rfl⟩

/-- The ports of the cycle that ends with T22: a payload of 504 ones. -/
def portsOfPayload : PortOut :=
  ⟨true, 0b10#2, false, 0b00#2, true, 504#11, (BitVec.allOnes 504).setWidth 1528, false, 0b000#3⟩

theorem witness_PortsCarryTheEvents_payload :
    Shows (live .locked .n1 (ones 504 ++ m7) [] true) portsOfPayload ∧
    ∃ t, step (live .locked .n1 (ones 504 ++ m7) [] true) = .next t ∧ Event.payloadRecovered (ones 504) ∈ t.events := by
  refine ⟨?_, witness_PayloadIsBufferLessMarker⟩
  have hp : payloadOf (cycleEvents (live .locked .n1 (ones 504 ++ m7) [] true)) = some (ones 504) := by decide +kernel
  have hn : newStateOf (cycleEvents (live .locked .n1 (ones 504 ++ m7) [] true)) = none := by decide +kernel
  refine ⟨by decide +kernel, by decide, by decide, by decide, by rw [hn]; rfl, ?_, by rw [hp]; rfl, ?_, ?_⟩
  · intro S h; rw [hn] at h; cases h
  · intro q h; rw [hp] at h; cases h; rw [ones, List.length_replicate]; rfl
  · intro q h i hi
    rw [hp] at h; cases h
    have h504 : i < 504 := by rwa [ones, List.length_replicate] at hi
    have h1528 : i < 1528 := by omega
    show (ones 504)[i]? = some (((BitVec.allOnes 504).setWidth 1528).getLsbD i)
    rw [ones, List.getElem?_replicate, if_pos h504, BitVec.getLsbD_setWidth, BitVec.getLsbD_allOnes, decide_eq_true h1528,
      decide_eq_true h504]
    rfl

/-- The ports of the cycle that ends with T3. -/
theorem witness_PortsCarryTheEvents_state :
    Shows (hunt 0x4D#8 8#4 true) ⟨true, 0b00#2, true, 0b01#2, false, 0#11, 0#1528, false, 0b000#3⟩ ∧
    ∃ t, step (hunt 0x4D#8 8#4 true) = .next t ∧ Event.stateChanged .verifying ∈ t.events := by
  refine ⟨?_, _, rfl, by decide⟩
  have hn : newStateOf (cycleEvents (hunt 0x4D#8 8#4 true)) = some .verifying := by decide
  have hp : payloadOf (cycleEvents (hunt 0x4D#8 8#4 true)) = none := by decide
  refine ⟨by decide, by decide, by decide, by decide, by rw [hn]; rfl, ?_, by rw [hp]; rfl, ?_, ?_⟩
  · intro S h; rw [hn] at h; cases h; rfl
  · intro q h; rw [hp] at h; cases h
  · intro q h; rw [hp] at h; cases h

theorem witness_TransitionGraph :
    (hunt 0x4D#8 8#4 true).pins.rst = false ∧
    ∃ t, step (hunt 0x4D#8 8#4 true) = .next t ∧ t.state ≠ (hunt 0x4D#8 8#4 true).state :=
  ⟨by decide, _, rfl, by decide⟩

/-- An empty, a short and a full window. -/
theorem witness_ObserveShiftsThenCompares :
    windowWf (hunt 0x00#8 0#4 true) ∧ windowWf (hunt 0x7F#8 7#4 true) ∧ windowWf (hunt 0xFF#8 8#4 true) := by decide

theorem witness_RetainedWindowMatchesAtSeventhBit :
    windowIsMarker (live .hunting .n1 [] [] true) ∧ 1 ≤ [true].length ∧
      [false, false, true, true, false, true, true].length ≤ 7 := by decide

theorem witness_AdvanceReportsAtExactTarget :
    (live .locked .n1 (zeros 1536) [] true).accLen = 1536 ∧
    ((live .locked .n1 (zeros 1535) [] true).accLen < 1536 ∧ (live .locked .n1 (zeros 1535) [] true).accLen + 1 = 6 * 256) ∧
    ((live .locked .n1 (zeros 0) [] true).accLen < 1536 ∧ (live .locked .n1 (zeros 0) [] true).accLen + 1 ≠ 1 * 256) := by
  decide +kernel

theorem witness_StoresStayWithinCapacity :
    Memory.wf (live .locked .n1 (zeros 1535) (zeros 512) true) ∧
    ∃ t, step (live .locked .n1 (zeros 1535) (zeros 512) true) = .next t :=
  ⟨by decide +kernel, step_next _⟩

/-- The first state of a 512-bit drain, its guard bit at index 249. -/
theorem witness_StepKeepsReachableInvariant :
    reachableInv (live .hunting .n1 [] (ones 512) true) ∧ ∃ t, step (live .hunting .n1 [] (ones 512) true) = .next t := by
  have hl : (live .hunting .n1 [] (ones 512) true).rqLen = 512 := by decide +kernel
  refine ⟨⟨⟨rfl, rfl, hl.le⟩, rfl, by decide, fun _ _ => ⟨rfl, ?_⟩, ?_, ?_, ?_⟩, step_next _⟩
  · rw [hl]; decide
  · intro h; cases h
  · intro _ _; rw [hl]; decide +kernel
  · intro _ _ h; rw [hl] at h; omega

theorem witness_NoRunFromResetFaults : ∃ s, reachable s ∧ s.win = 0x01#8 :=
  ⟨_, ⟨[PortIn.offer true], 1, rfl⟩, by decide⟩

theorem witness_EntryToHuntingKeepsMarkerInWindow :
    let s := live .verifying .n1 (zeros 255) [] true
    reachableInv s ∧ s.pins.rst = false ∧ s.state ≠ .hunting ∧ ∃ t, step s = .next t ∧ t.state = .hunting := by
  obtain ⟨t, ht⟩ := step_next (live .verifying .n1 (zeros 255) [] true)
  have h : (view (step (live .verifying .n1 (zeros 255) [] true))).map View.state = some .hunting := by decide +kernel
  rw [ht] at h
  refine ⟨⟨⟨rfl, by decide +kernel, .inl rfl, by decide⟩, rfl, by decide, ?_, ?_, ?_, ?_⟩, by decide, by decide,
    t, ht, Option.some.inj h⟩
  · intro h; cases h
  · intro _ h; cases h
  · intro h; cases h
  · intro h; cases h

theorem witness_DrainEndsWithin766Edges : reachableInv (live .hunting .n1 [] (ones 512) true) :=
  witness_StepKeepsReachableInvariant.1

theorem witness_ProcessBitLeavesBlockReady :
    reachableInv (live .verifying .n1 (zeros 255) [] true) ∧ (live .verifying .n1 (zeros 255) [] true).rq = [] :=
  ⟨witness_EntryToHuntingKeepsMarkerInWindow.1, rfl⟩

/-- The three clauses: accepted, rejected at the guard bit, rejected at the marker. -/
theorem witness_VerificationInStreamTerms :
    (let bits := ones 504 ++ markerSeq
     { live .verifying .n1 [] [] true with supply := bits.map PortIn.offer }.supply = bits.map PortIn.offer ++ [] ∧
      bits.length = 512 ∧ bits[249]? = some true ∧ bits.drop 504 = markerSeq) ∧
    ((zeros 256).length = 256 ∧ (zeros 256)[249]? = some false) ∧
    ((ones 512).length = 512 ∧ (ones 512)[249]? = some true ∧ (ones 512).drop 504 ≠ markerSeq) := by
  decide +kernel

/-- k = 511, 512, 1535 and 1536 are the boundaries of the three clauses. -/
theorem witness_LossEscalationTiming :
    let s := { live .locked .n1 [] [] true with supply := (ones 1536).map PortIn.offer }
    s.state = .locked ∧ s.nsel = .n1 ∧ s.acc = [] ∧ s.rq = [] ∧ s.fault = false ∧
      s.supply = (ones 1536).map PortIn.offer ++ [] ∧ (ones 1536).length = 1536 ∧
      ((ones 1536).drop 504).take 8 ≠ markerSeq ∧ ((ones 1536).drop 1016).take 8 ≠ markerSeq ∧
      (ones 1536).drop 1528 ≠ markerSeq := by
  decide +kernel

theorem witness_MarkerFreeStreamStaysHunting : ¬ markerSeq <:+: [true, false, false, true, true, false, true, false] := by
  decide

theorem witness_MarkerAndGuardNeverBoth : markerSeq.length = 8 ∧ markerTest markerSeq = true := by decide

theorem witness_DecodeAndEncodeAgree :
    (Instr.lMarkFail .n4 true).wellFormed = true ∧ (decode (.sel 0xAA#8)).toOption = some (.lMarkFail .n4 true) := by decide

end Sys2Proof.Tests
end

section
/-! The statements of `10_state.md`: reset, the invariant of the reachable states, and what a step does to the stores and the
window. -/

namespace Sys2Proof.Machine

/-! ## What an arm does to one register -/

section
variable {s t : State} {b : Bit} {i : Instr}

/-- The arm taken in a step that processes b leaves the state the step leaves. -/
theorem armCase_of_step (hb : nextBit s = some b) (h : step s = .next t) : ∃ i, ArmCase s b i t := by
  obtain ⟨i, u, hc⟩ := exists_armCase s b
  have htu : t = u := by simpa using h.symm.trans (step_of_armCase hb hc)
  exact ⟨i, htu ▸ hc⟩

/-- R103: only the arms of `HUNTING` observe a bit. -/
theorem ArmCase.window_eq (h : ArmCase s b i t) (hs : s.state ≠ .hunting) : t.win = s.win ∧ t.winLen = s.winLen := by
  cases h with
  | hMiss hh | hHit hh => exact absurd hh hs
  | _ => exact ⟨rfl, rfl⟩

/-- R42: the buffer is kept, cleared, or extended by the step's bit while it is not full. -/
theorem ArmCase.acc_cases (h : ArmCase s b i t) :
    t.acc = s.acc ∨ t.acc = [] ∨ (s.accLen < Config.accCap ∧ t.acc = s.acc ++ [b]) := by
  cases h with
  | hMiss | vWaitFull | illVn | lWaitFull | illCn | cWaitFull => exact .inl rfl
  | hHit | v1GuardFail | v2MarkOk | v2MarkFail | lMarkOk | c4MarkOk | c6MarkOk | c6MarkFail =>
    exact .inr (.inl rfl)
  | vWait _ _ hc | lWait _ hc | cWait _ _ hc => exact .inr (.inr ⟨hc, rfl⟩)
  | v1GuardOk _ _ hl | c4MarkFail _ _ _ hl => exact .inr (.inr ⟨by rw [hl]; decide, rfl⟩)
  | lMarkFail _ _ hl => exact .inr (.inr ⟨by rw [hl]; decide, rfl⟩)

/-- R121: the queue is kept, popped, cleared, or loaded with a buffer of at most 512 bits. -/
theorem ArmCase.rq_cases (h : ArmCase s b i t) :
    t.rq = s.rq ∨ t.rq = s.rq.tail ∨ t.rq = [] ∨ (s.accLen < Config.rqCap ∧ t.rq = s.acc ++ [b]) := by
  cases h with
  | vWaitFull | illVn | lWaitFull | illCn | cWaitFull => exact .inl rfl
  | v2MarkOk | c6MarkFail => exact .inr (.inr (.inl rfl))
  | v1GuardFail _ _ hl | v2MarkFail _ _ _ hl => exact .inr (.inr (.inr ⟨by rw [hl]; decide, rfl⟩))
  | _ => exact .inr (.inl rfl)

theorem ArmCase.accLen_le (h : ArmCase s b i t) (hs : s.accLen ≤ Config.accCap) : t.accLen ≤ Config.accCap := by
  rcases h.acc_cases with ht | ht | ⟨hc, ht⟩
  · rwa [State.accLen, ht]
  · simp [State.accLen, ht]
  · simpa [State.accLen, ht] using hc

theorem ArmCase.rqLen_le (h : ArmCase s b i t) (hs : s.rqLen ≤ Config.rqCap) : t.rqLen ≤ Config.rqCap := by
  rcases h.rq_cases with ht | ht | ht | ⟨hc, ht⟩
  · rwa [State.rqLen, ht]
  · simpa [State.rqLen, ht] using Nat.le_succ_of_le hs
  · simp [State.rqLen, ht]
  · simpa [State.rqLen, ht] using hc

/-- R40: an arm that replays the last bit of the queue and does not fault leaves what it leaves with that bit offered
(`sup`) to an empty queue. -/
theorem ArmCase.live_of_replayed (h : ArmCase s b i t) (hq : s.rq = [b]) (hf : t.fault = false) (sup : List PortIn)
    (evs : List Event) :
    let u := { s with rq := [], supply := sup, events := evs }
    ArmCase u b i { t with supply := nextSupply u } := by
  obtain ⟨S, n, win, winLen, acc, rq, fault, code, supply, events⟩ := s
  subst (hq : rq = [b])
  cases h with
  | hMiss hs hw => exact .hMiss hs hw
  | hHit hs hw => exact .hHit hs hw
  | vWait hs hn hc hl => exact .vWait hs hn hc hl
  | v1GuardOk hs hn hl hg => exact .v1GuardOk hs hn hl hg
  | v1GuardFail hs hn hl hg => exact .v1GuardFail hs hn hl hg
  | v2MarkOk hs hn hl hm => exact .v2MarkOk hs hn hl hm
  | v2MarkFail g hs hn hl hm hg => exact .v2MarkFail g hs hn hl hm hg
  | lWait hs hc hl => exact .lWait hs hc hl
  | lMarkOk hs hl hm => exact .lMarkOk hs hl hm
  | lMarkFail g hs hl hm hg => exact .lMarkFail g hs hl hm hg
  | cWait hs hn hc hl => exact .cWait hs hn hc hl
  | c4MarkOk hs hn hl hm => exact .c4MarkOk hs hn hl hm
  | c4MarkFail g hs hn hl hm hg => exact .c4MarkFail g hs hn hl hm hg
  | c6MarkOk hs hn hl hm => exact .c6MarkOk hs hn hl hm
  | c6MarkFail g hs hn hl hm hg => exact .c6MarkFail g hs hn hl hm hg
  | vWaitFull | illVn | lWaitFull | illCn | cWaitFull => cases hf

end

/-- Equal registers: the states differ in the input to come and the last events only. -/
theorem eq_of_sameRegisters {s u : State} (h : sameRegisters s u) :
    u = { s with supply := u.supply, events := u.events } := by
  obtain ⟨h1, h2, h3, h4, h5, h6, h7, h8⟩ := h
  simp [h1, h2, h3, h4, h5, h6, h7, h8]

/-! ## The table of R41 by state -/

section
variable {s : State}

theorem reachableTable_hunting_iff (hs : s.state = .hunting) :
    reachableTable s ↔ s.fault = false ∧ s.nsel = .n1 ∧ s.accLen = 0 ∧ s.rqLen ≤ 512 := by
  cases hn : s.nsel <;> simp [hs, hn]

theorem reachableTable_verifying_iff (hs : s.state = .verifying) :
    reachableTable s ↔ s.fault = false ∧
      ((s.nsel = .n1 ∧ s.accLen ≤ 255) ∨ (s.nsel = .n2 ∧ 256 ≤ s.accLen ∧ s.accLen ≤ 511)) ∧
      (s.rqLen = 0 ∨ s.accLen + s.rqLen ≤ 505) ∧ windowIsMarker s := by
  cases hn : s.nsel <;> simp [hs, hn]

theorem reachableTable_locked_iff (hs : s.state = .locked) :
    reachableTable s ↔ s.fault = false ∧ s.nsel = .n1 ∧ s.accLen ≤ 511 ∧ s.rqLen = 0 ∧ windowIsMarker s := by
  cases hn : s.nsel <;> simp [hs, hn]

theorem reachableTable_lossCheck_iff (hs : s.state = .lossCheck) :
    reachableTable s ↔ s.fault = false ∧
      ((s.nsel = .n4 ∧ 512 ≤ s.accLen ∧ s.accLen ≤ 1023) ∨ (s.nsel = .n6 ∧ 1024 ≤ s.accLen ∧ s.accLen ≤ 1535)) ∧
      s.rqLen = 0 ∧ windowIsMarker s := by
  cases hn : s.nsel <;> simp [hs, hn]

end

/-- R26: outside `HUNTING` a state of the table retains the marker in its window. -/
theorem windowIsMarker_of_table {s : State} (h : reachableTable s) (hs : s.state ≠ .hunting) : windowIsMarker s := by
  cases hst : s.state with
  | hunting => exact absurd hst hs
  | verifying => obtain ⟨-, -, -, hw⟩ := (reachableTable_verifying_iff hst).mp h; exact hw
  | locked => obtain ⟨-, -, -, -, hw⟩ := (reachableTable_locked_iff hst).mp h; exact hw
  | lossCheck => obtain ⟨-, -, -, hw⟩ := (reachableTable_lossCheck_iff hst).mp h; exact hw

/-! ## The window of a step in `HUNTING` -/

/-- The bit of a step is the head of the queue, unless the queue is empty. -/
theorem rq_of_nextBit {s : State} {b : Bit} (hb : nextBit s = some b) : s.rq = [] ∨ s.rq = b :: s.rq.tail := by
  obtain ⟨-, -, ⟨q, hq, -⟩ | ⟨hq, -⟩⟩ := nextBit_cases hb
  · right; rw [hq]; rfl
  · exact .inl hq

/-- A full window has no unused position. -/
theorem windowWf_of_full {s : State} (h : s.winLen = 8#4) : windowWf s := by
  rw [windowWf, h]
  exact ⟨by decide, s.win.isLt⟩

theorem winLenNext_of_full {s : State} (h : s.winLen = 8#4) : winLenNext s = 8#4 := by
  simp [winLenNext, h]

section
variable {s : State} {b : Bit} {q : BitSeq}

/-- R46: each replayed bit moves the marker out of the window by one place. -/
theorem windowShifted_observe (hw : windowWf s) (hq : s.rq = b :: q) (hcap : s.rqLen ≤ 512) (h : windowShifted s) :
    windowShifted ({ s with rq := q }.observe b).1 := by
  intro (hr : 505 < q.length)
  have hlen : s.rqLen = q.length + 1 := by simp [State.rqLen, hq]
  obtain ⟨hfull, hsh⟩ := h (by omega)
  have hnext := shifted_next (512 - s.rqLen) (by omega) s.win b hsh
  refine ⟨winLenNext_of_full hfull, ?_⟩
  show winNext b s >>> (512 - q.length) = Config.marker &&& 0xFF#8 >>> (512 - q.length)
  rwa [← winNext_eq b hw, show 512 - s.rqLen + 1 = 512 - q.length by omega] at hnext

/-- R125: the guard bit moves up to the head of the queue and on through the window. -/
theorem guardKept_observe (hw : windowWf s) (hq : s.rq = b :: q) (hs : s.state = .hunting) (h : guardKept s) :
    guardKept ({ s with rq := q }.observe b).1 := by
  have hlen : s.rqLen = q.length + 1 := by simp [State.rqLen, hq]
  obtain ⟨-, hqueue, hwin⟩ := h
  refine ⟨fun hv => absurd (hs.symm.trans hv) (by decide), ?_, ?_⟩
  · intro _ (hr : 263 ≤ q.length)
    have hbit := hqueue hs (by omega)
    rwa [State.rqBit, hq, show s.rqLen - 263 = (q.length - 263) + 1 by omega, List.getElem?_cons_succ] at hbit
  · intro _ (hr : 257 ≤ q.length) (hr' : q.length ≤ 262)
    show (winNext b s).getLsbD (262 - q.length) = true
    rw [winNext_eq b hw]
    by_cases hhead : q.length = 262
    · have hbit := hqueue hs (by omega)
      rw [State.rqBit, hq, show s.rqLen - 263 = 0 by omega, List.getElem?_cons_zero] at hbit
      rw [hhead, Option.some.inj hbit]
      exact shiftIn_newest s.win true
    · rw [show 262 - q.length = (262 - s.rqLen) + 1 by omega, shiftIn_moves _ (by omega)]
      exact hwin hs (by omega) (by omega)

/-- While the retained marker is shifted out, no replayed bit before the seventh completes it again (R46). -/
theorem rqLen_le_of_hit (hw : windowWf s) (hcap : s.rqLen ≤ 512) (h : windowShifted s)
    (hm : winNext b s = Config.marker) : s.rqLen ≤ 506 := by
  by_contra hlong
  obtain ⟨-, hsh⟩ := h (by omega)
  exact shifted_not_marker (512 - s.rqLen) (by omega) s.win b hsh (by rw [← winNext_eq b hw, hm])

end

/-! ## The invariant of the reachable states -/

section
variable {s t : State} {b : Bit} {i : Instr}

/-- In `HUNTING`, a queue of at most 256 bits leaves nothing to say of R46 and R125. -/
theorem reachableInv_of_short_queue (ht : reachableTable t) (hc : t.faultCode = 0b000#3) (hw : windowWf t)
    (hs : t.state = .hunting) (hq : t.rqLen ≤ 256) : reachableInv t :=
  ⟨ht, hc, hw, fun _ _ => by omega, fun hv => absurd (hs.symm.trans hv) (by decide), fun _ _ => by omega,
    fun _ _ => by omega⟩

/-- Outside `HUNTING` the table implies the rest but for the guard bit of `VERIFYING` with n = 2. -/
theorem reachableInv_of_not_hunting (hs : t.state ≠ .hunting) (hc : t.faultCode = 0b000#3)
    (hg : t.state = .verifying → t.nsel = .n2 → t.accBit 249 = some true) (ht : reachableTable t) : reachableInv t := by
  obtain ⟨-, hfull⟩ := windowIsMarker_of_table ht hs
  exact ⟨ht, hc, windowWf_of_full hfull, fun h => absurd h hs, hg, fun h => absurd h hs, fun h => absurd h hs⟩

/-- In `LOCKED` and `LOSS_CHECK` the table implies the rest. -/
theorem reachableInv_of_steady (hs : t.state = .locked ∨ t.state = .lossCheck) (hc : t.faultCode = 0b000#3)
    (ht : reachableTable t) : reachableInv t := by
  refine reachableInv_of_not_hunting ?_ hc ?_ ht <;> rcases hs with hs | hs <;> simp [hs]

/-- R43: after reset the invariant holds under any input. -/
theorem reachableInv_reset (input : List PortIn) : reachableInv { State.reset with supply := input } :=
  reachableInv_of_short_queue ((reachableTable_hunting_iff rfl).mpr ⟨rfl, rfl, rfl, Nat.zero_le _⟩) rfl
    ⟨Nat.zero_le _, Nat.one_pos⟩ rfl (Nat.zero_le _)

/-- R131: a replayed bit is one step of the drain, a live one finds the queue empty. -/
theorem reachableInv_hMiss (hb : nextBit s = some b) (hs : s.state = .hunting) (h : reachableInv s) :
    reachableInv ({ s with rq := s.rq.tail }.observe b).1 := by
  obtain ⟨ht, hcode, hw, hsh, hg⟩ := h
  obtain ⟨hf, hn, hacc, hcap⟩ := (reachableTable_hunting_iff hs).mp ht
  have htail : s.rq.tail.length ≤ s.rqLen := by simp
  have ht' : reachableTable ({ s with rq := s.rq.tail }.observe b).1 :=
    Iff.mpr (reachableTable_hunting_iff hs) ⟨hf, hn, hacc, htail.trans hcap⟩
  rcases rq_of_nextBit hb with hq | hq
  · exact reachableInv_of_short_queue ht' hcode (windowWf_next b hw) hs (by simp [State.rqLen, hq])
  · exact ⟨ht', hcode, windowWf_next b hw, fun _ => windowShifted_observe hw hq hcap (hsh hs),
      guardKept_observe hw hq hs hg⟩

/-- A bit in the buffer stays where it is when one is appended. -/
theorem getElem?_of_accBit {a : Nat} {g : Bit} (h : s.accBit a = some g) (b : Bit) : (s.acc ++ [b])[a]? = some g := by
  obtain ⟨ha, -⟩ := List.getElem?_eq_some_iff.mp h
  rw [List.getElem?_append_left ha]
  exact h

/-- R132: a match comes after at least six bits of a 512-bit queue, so at most 505 are left (R46). -/
theorem reachableInv_hHit (hs : s.state = .hunting) (hm : winNext b s = Config.marker) (h : reachableInv s) :
    reachableInv ((({ s with rq := s.rq.tail }.observe b).1.setState .verifying).setN .n1).faClear := by
  obtain ⟨ht, hcode, hwf, hsh, -⟩ := h
  obtain ⟨hf, -, -, hcap⟩ := (reachableTable_hunting_iff hs).mp ht
  obtain ⟨hle, hlt⟩ := windowWf_next b hwf
  have hmarker : winNext b s = Config.marker ∧ winLenNext s = 8#4 := ⟨hm, winLen_of_marker hle hlt hm⟩
  have hleft : 0 + s.rq.tail.length ≤ 505 := by
    have hlen := rqLen_le_of_hit hwf hcap (hsh hs) hm
    simpa using hlen
  exact reachableInv_of_not_hunting (by simp) hcode (fun _ hn => by cases hn)
    (Iff.mpr (reachableTable_verifying_iff rfl) ⟨hf, .inl ⟨rfl, Nat.zero_le _⟩, .inr hleft, hmarker⟩)

/-- R137: a queue of 512 bits starts its drain with the marker whole in the window (R46) and its guard bit at 249 (R125). -/
theorem reachableInv_v2MarkFail (hs : s.state = .verifying) (hn : s.nsel = .n2) (hl : s.accLen = 511)
    (h : reachableInv s) :
    reachableInv { s with rq := s.acc ++ [b], acc := [], nsel := .n1, state := .hunting } := by
  obtain ⟨ht, hcode, hwf, -, hguard, -⟩ := h
  obtain ⟨hf, -, -, hwin, hfull⟩ := (reachableTable_verifying_iff hs).mp ht
  have hr : (s.acc ++ [b]).length = 512 := by simpa using hl
  refine ⟨Iff.mpr (reachableTable_hunting_iff rfl) ⟨hf, rfl, rfl, hr.le⟩, hcode, hwf, fun _ _ => ⟨hfull, ?_⟩,
    fun hv => absurd hv (by simp), fun _ _ => ?_, fun _ _ hr' => absurd (hr.ge.trans hr') (by decide)⟩
  · show s.win >>> (512 - (s.acc ++ [b]).length) = Config.marker &&& 0xFF#8 >>> (512 - (s.acc ++ [b]).length)
    rw [hr, hwin]
    decide
  · show (s.acc ++ [b])[(s.acc ++ [b]).length - 263]? = some true
    rw [hr]
    exact getElem?_of_accBit (hguard hs hn) b

/-- R41, R46, R125: every arm keeps the invariant. -/
theorem ArmCase.keeps_reachableInv (h : ArmCase s b i t) (hb : nextBit s = some b) (hi : reachableInv s) :
    reachableInv t := by
  obtain ⟨ht, hcode, hwf, -, hguard, -⟩ := id hi
  have htail : s.rq.tail.length = s.rqLen - 1 := List.length_tail
  have happ : (s.acc ++ [b]).length = s.accLen + 1 := by simp
  have hcap : Config.accCap = 1536 := rfl
  cases h with
  | hMiss hs => exact reachableInv_hMiss hb hs hi
  | hHit hs hw => exact reachableInv_hHit hs hw hi
  | vWait hs hn hc hl =>
    obtain ⟨hf, hrow, hr, hw⟩ := (reachableTable_verifying_iff hs).mp ht
    refine reachableInv_of_not_hunting (by simp [hs]) hcode (fun _ hn => getElem?_of_accBit (hguard hs hn) b)
      (Iff.mpr (reachableTable_verifying_iff hs) ⟨hf, ?_, ?_, hw⟩)
    · rcases hrow with ⟨hn1, ha⟩ | ⟨hn2, ha, ha'⟩
      · rw [hn1, NSel.val] at hl
        exact .inl ⟨hn1, happ.trans_le (by omega)⟩
      · rw [hn2, NSel.val] at hl
        exact .inr ⟨hn2, happ.ge.trans' (by omega), happ.trans_le (by omega)⟩
    · show s.rq.tail.length = 0 ∨ (s.acc ++ [b]).length + s.rq.tail.length ≤ 505
      omega
  | vWaitFull hs =>
    obtain ⟨-, hrow, -⟩ := (reachableTable_verifying_iff hs).mp ht
    omega
  | v1GuardOk hs hn hl hg =>
    obtain ⟨hf, -, hr, hw⟩ := (reachableTable_verifying_iff hs).mp ht
    refine reachableInv_of_not_hunting (by simp [hs]) hcode (fun _ _ => getElem?_of_accBit hg b)
      (Iff.mpr (reachableTable_verifying_iff hs)
        ⟨hf, .inr ⟨rfl, happ.ge.trans' (by omega), happ.trans_le (by omega)⟩, ?_, hw⟩)
    show s.rq.tail.length = 0 ∨ (s.acc ++ [b]).length + s.rq.tail.length ≤ 505
    omega
  | v1GuardFail hs hn hl =>
    obtain ⟨hf, -⟩ := (reachableTable_verifying_iff hs).mp ht
    have hr : (s.acc ++ [b]).length ≤ 256 := by omega
    exact reachableInv_of_short_queue
      (Iff.mpr (reachableTable_hunting_iff rfl) ⟨hf, rfl, rfl, hr.trans (by decide)⟩) hcode hwf rfl hr
  | v2MarkOk hs =>
    obtain ⟨hf, -, -, hw⟩ := (reachableTable_verifying_iff hs).mp ht
    exact reachableInv_of_steady (.inl rfl) hcode
      (Iff.mpr (reachableTable_locked_iff rfl) ⟨hf, rfl, Nat.zero_le _, rfl, hw⟩)
  | v2MarkFail g hs hn hl => exact reachableInv_v2MarkFail hs hn hl hi
  | illVn hs hn =>
    obtain ⟨-, ⟨hn', -⟩ | ⟨hn', -⟩, -⟩ := (reachableTable_verifying_iff hs).mp ht <;> rw [hn'] at hn <;> cases hn
  | lWait hs hc hl =>
    obtain ⟨hf, hn, ha, hr, hw⟩ := (reachableTable_locked_iff hs).mp ht
    exact reachableInv_of_steady (.inl hs) hcode (Iff.mpr (reachableTable_locked_iff hs)
      ⟨hf, hn, happ.trans_le (by omega), htail.trans (by omega), hw⟩)
  | lWaitFull hs =>
    obtain ⟨-, -, ha, -⟩ := (reachableTable_locked_iff hs).mp ht
    omega
  | lMarkOk hs =>
    obtain ⟨hf, hn, -, hr, hw⟩ := (reachableTable_locked_iff hs).mp ht
    exact reachableInv_of_steady (.inl hs) hcode (Iff.mpr (reachableTable_locked_iff hs)
      ⟨hf, hn, Nat.zero_le _, htail.trans (by omega), hw⟩)
  | lMarkFail g hs hl =>
    obtain ⟨hf, -, -, hr, hw⟩ := (reachableTable_locked_iff hs).mp ht
    exact reachableInv_of_steady (.inr rfl) hcode (Iff.mpr (reachableTable_lossCheck_iff rfl)
      ⟨hf, .inl ⟨rfl, happ.ge.trans' (by omega), happ.trans_le (by omega)⟩, htail.trans (by omega), hw⟩)
  | illCn hs hn =>
    obtain ⟨-, ⟨hn', -⟩ | ⟨hn', -⟩, -⟩ := (reachableTable_lossCheck_iff hs).mp ht <;> rw [hn'] at hn <;> cases hn
  | cWait hs hn hc hl =>
    obtain ⟨hf, hrow, hr, hw⟩ := (reachableTable_lossCheck_iff hs).mp ht
    refine reachableInv_of_steady (.inr hs) hcode
      (Iff.mpr (reachableTable_lossCheck_iff hs) ⟨hf, ?_, htail.trans (by omega), hw⟩)
    rcases hrow with ⟨hn4, ha, ha'⟩ | ⟨hn6, ha, ha'⟩
    · rw [hn4, NSel.val] at hl
      exact .inl ⟨hn4, happ.ge.trans' (by omega), happ.trans_le (by omega)⟩
    · rw [hn6, NSel.val] at hl
      exact .inr ⟨hn6, happ.ge.trans' (by omega), happ.trans_le (by omega)⟩
  | cWaitFull hs =>
    obtain ⟨-, hrow, -⟩ := (reachableTable_lossCheck_iff hs).mp ht
    omega
  | c4MarkOk hs | c6MarkOk hs =>
    obtain ⟨hf, -, hr, hw⟩ := (reachableTable_lossCheck_iff hs).mp ht
    exact reachableInv_of_steady (.inl rfl) hcode (Iff.mpr (reachableTable_locked_iff rfl)
      ⟨hf, rfl, Nat.zero_le _, htail.trans (by omega), hw⟩)
  | c4MarkFail g hs hn hl =>
    obtain ⟨hf, -, hr, hw⟩ := (reachableTable_lossCheck_iff hs).mp ht
    exact reachableInv_of_steady (.inr hs) hcode (Iff.mpr (reachableTable_lossCheck_iff hs)
      ⟨hf, .inr ⟨rfl, happ.ge.trans' (by omega), happ.trans_le (by omega)⟩, htail.trans (by omega), hw⟩)
  | c6MarkFail g hs =>
    obtain ⟨hf, -⟩ := (reachableTable_lossCheck_iff hs).mp ht
    exact reachableInv_of_short_queue (Iff.mpr (reachableTable_hunting_iff rfl) ⟨hf, rfl, rfl, Nat.zero_le _⟩) hcode
      hwf rfl (Nat.zero_le _)

end

/-! ## Runs -/

/-- A property that every step keeps holds at the end of every run that starts with it. -/
theorem run_keeps {P : State → Prop} (hP : ∀ s t, P s → step s = .next t → P t) {k : Nat} {s t : State} (hs : P s)
    (h : Sys2Proof.core.run k s = .next t) : P t := by
  induction k generalizing s with
  | zero => cases h; exact hs
  | succ k ih =>
    obtain ⟨u, hu⟩ := step_next s
    have hrun : Sys2Proof.core.run (k + 1) s = Sys2Proof.core.run k u := by
      simp only [Host.Core.run, show Sys2Proof.core.step s = .next u from hu]
    exact ih (hP s u hs hu) (hrun.symm.trans h)

/-! ## The marker and the guard bit -/

/-- R23: where a target is defined, its checkpoint holds a whole octet. -/
theorem targetBits_of_targetFrames {S : AlignState} {n : NSel} {T : Nat} (h : targetFrames S n = some T) :
    8 ≤ targetBits T := by
  cases S <;> cases n <;> cases h <;> decide

/-- R36: at a checkpoint both conditions are read from one octet, elsewhere both are 0. -/
theorem conds_guard_of_marker (s : State) (b : Bit) (hm : (conds s b).mk = true) : (conds s b).gd = false := by
  cases hT : targetFrames s.state s.nsel with
  | none => simp [conds, hT]
  | some T =>
    by_cases hi : illegalPair s.state s.nsel = true
    · rw [conds_illegal b hi]; rfl
    by_cases hc : s.accLen < Config.accCap ∧ s.accLen + 1 = targetBits T
    · obtain ⟨hc, hl⟩ := hc
      have hlen : (s.acc ++ [b]).length = targetBits T := by simpa using hl
      rw [conds_at b hT (Bool.eq_false_iff.mpr hi) hc hl] at hm ⊢
      exact guardTest_of_markerTest (trailingOctet_length ((targetBits_of_targetFrames hT).trans hlen.ge)) hm
    · rw [conds_off b hT (by omega)]; rfl

/-! ## Observing many bits -/

theorem octetSeq_eq_markerSeq_iff : ∀ v : BitVec 8, octetSeq v = markerSeq ↔ v = Config.marker := by
  decide +kernel

/-- A full window that observes a run of bits holds the last 8 of its own bits and the new ones. -/
theorem octetSeq_observe_run (bits : BitSeq) : ∀ s : State, s.winLen = 8#4 →
    octetSeq (bits.foldl (fun u b => (u.observe b).1) s).win = (octetSeq s.win ++ bits).drop bits.length := by
  induction bits with
  | nil => intro s _; simp
  | cons b bits ih =>
    intro s hfull
    have hone : octetSeq (s.observe b).1.win = (octetSeq s.win).drop 1 ++ [b] := by
      rw [observe_win, winNext_eq b (windowWf_of_full hfull), octetSeq_shiftIn]
    rw [List.foldl_cons, ih _ (winLenNext_of_full hfull), hone, List.append_assoc,
      ← List.drop_append_of_le_length (by simp), List.drop_drop, List.length_cons, Nat.add_comm]
    rfl

/-- R46: the marker overlaps itself, shifted by 1 to 7 places, in its last bit alone. -/
theorem markerSeq_overlap {bits : BitSeq} (h1 : 1 ≤ bits.length) (h7 : bits.length ≤ 7) :
    (markerSeq ++ bits).drop bits.length = markerSeq ↔ bits = [false, false, true, true, false, true, true] := by
  rw [List.drop_append_of_le_length (h7.trans (by decide))]
  constructor
  · intro h
    rcases h7.eq_or_lt with hlast | hearly
    · rw [hlast] at h
      exact List.append_cancel_left h
    · generalize bits.length = k at *
      interval_cases k <;> cases h
  · rintro rfl
    rfl

end Sys2Proof.Machine
end

section
/-! The obligations of `10_state.md`. -/

namespace Sys2Proof.Machine

/-- Settles O49: a reset restores the initial values, a cycle without a bit keeps the registers, and every arm keeps the
invariant. -/
theorem stepKeepsReachableInvariant : Obligations.StepKeepsReachableInvariant := by
  intro s t hs h
  rcases step_cases h with ⟨-, rfl⟩ | ⟨-, -, rfl⟩ | ⟨-, -, b, i, hb, hc⟩
  · exact reachableInv_reset (nextSupply s)
  · exact hs
  · exact hc.keeps_reachableInv hb hs

/-- Settles O10: the arm that replays the bit is the arm that takes it live. -/
theorem replayedAndLiveBitsAreTreatedAlike : Obligations.ReplayedAndLiveBitsAreTreatedAlike := by
  intro s u s' u' b hrs hru hfs hsu hq hv hb hs' hu' hf
  obtain ⟨i, hc⟩ := armCase_of_step (nextBit_replay hrs hfs hq) hs'
  have hlive := hc.live_of_replayed hq hf u.supply u.events
  have hu : u = { s with rq := [], supply := u.supply, events := u.events } := eq_of_sameRegisters hsu
  have hbit : nextBit u = some b := by
    obtain ⟨-, -, -, -, -, hqu, hfu, -⟩ := hsu
    rw [nextBit_accept hru (hfu.symm.trans hfs) hqu.symm hv, hb]
  rw [← hu] at hlive
  cases hu'.symm.trans (step_of_armCase hbit hlive)
  exact ⟨⟨rfl, rfl, rfl, rfl, rfl, rfl, rfl, rfl⟩, rfl⟩

/-- Settles O32, for the arm that the instruction runs. -/
theorem windowChangesOnlyInHunting : Obligations.WindowChangesOnlyInHunting := by
  intro i s t h hs
  obtain ⟨b, j, -, hc, -⟩ := exec_cases h
  exact hc.window_eq hs

/-- Settles O45: the window after the bits, compared with the marker as a sequence. -/
theorem retainedWindowMatchesAtSeventhBit : Obligations.RetainedWindowMatchesAtSeventhBit := by
  rintro s bits ⟨hwin, hfull⟩ h1 h7
  have hmarker : octetSeq s.win = markerSeq := (octetSeq_eq_markerSeq_iff _).mpr hwin
  rw [← markerSeq_overlap h1 h7, ← hmarker, ← octetSeq_observe_run bits s hfull, hmarker]
  exact (octetSeq_eq_markerSeq_iff _).symm

/-- Settles O47, for each store by the ways an arm can change it. -/
theorem storesStayWithinCapacity : Obligations.StoresStayWithinCapacity := by
  rintro s t ⟨hacc, hrq⟩ h
  rcases step_cases h with ⟨-, rfl⟩ | ⟨-, -, rfl⟩ | ⟨-, -, b, i, -, hc⟩
  · exact ⟨Nat.zero_le _, Nat.zero_le _⟩
  · exact ⟨hacc, hrq⟩
  · exact ⟨hc.accLen_le hacc, hc.rqLen_le hrq⟩

/-- Settles O50, by the invariant of O49 along the run. -/
theorem noRunFromResetFaults : Obligations.NoRunFromResetFaults := by
  rintro s ⟨input, k, h⟩
  obtain ⟨⟨hf, hrow⟩, -⟩ := run_keeps stepKeepsReachableInvariant (reachableInv_reset input) h
  exact ⟨hf, hf, hrow⟩

/-- Settles O51: the window is the one retained since `HUNTING` was left, as only its arms change it. -/
theorem entryToHuntingKeepsMarkerInWindow : Obligations.EntryToHuntingKeepsMarkerInWindow := by
  intro s t hs hr h hne ht
  obtain ⟨htab, -⟩ := stepKeepsReachableInvariant s t hs h
  obtain ⟨-, -, hacc, -⟩ := (reachableTable_hunting_iff ht).mp htab
  obtain ⟨htabs, -⟩ := hs
  obtain ⟨hwin, hlen⟩ := windowIsMarker_of_table htabs hne
  refine ⟨List.eq_nil_of_length_eq_zero hacc, ?_⟩
  rcases step_cases h with ⟨hr', -⟩ | ⟨-, -, rfl⟩ | ⟨-, -, b, i, -, hc⟩
  · rw [hr] at hr'; cases hr'
  · exact absurd ht hne
  · obtain ⟨hw, hl⟩ := hc.window_eq hne
    exact ⟨hw.trans hwin, hl.trans hlen⟩

/-- Settles O59, by the one octet both conditions are read from. -/
theorem markerAndGuardNeverBoth : Obligations.MarkerAndGuardNeverBoth := by
  refine ⟨fun o ho hm => guardTest_of_markerTest ho hm, fun s b => ?_⟩
  rintro ⟨hm, hg⟩
  rw [conds_guard_of_marker s b hm] at hg
  cases hg

/-- Settles O1: every field of `State.reset` is written out. -/
theorem resetLeavesSpecifiedValues : Obligations.ResetLeavesSpecifiedValues :=
  ⟨rfl, rfl, rfl, rfl, rfl, rfl, rfl, rfl, rfl, fun _ => ⟨rfl, rfl⟩⟩

/-- Settles O48: the queue is empty, so nothing is asked of a drain. -/
theorem resetMeetsReachableInvariant : Obligations.ResetMeetsReachableInvariant := reachableInv_reset

end Sys2Proof.Machine
end

section
/-! The statements of `30_encoding.md`: decoder and encoder are inverse to each other, a selector falls under one row of the
arm table, and which arms `exec` refuses. -/

namespace Sys2Proof

/-! ## Decode after encode, and encode after decode -/

/-- The decoder reads every well-formed instruction's word as that instruction. -/
theorem decode_encode {i : Instr} (h : i.wellFormed = true) : decode (encode i) = .ok i := by
  cases i with
  | hMiss n => exact Laws.RoundTrip.hMiss n h
  | hHit n => exact Laws.RoundTrip.hHit n h
  | vWait n => exact Laws.RoundTrip.vWait n h
  | v1GuardOk mk => exact Laws.RoundTrip.v1GuardOk mk h
  | v1GuardFail mk => exact Laws.RoundTrip.v1GuardFail mk h
  | v2MarkOk gd => exact Laws.RoundTrip.v2MarkOk gd h
  | v2MarkFail gd => exact Laws.RoundTrip.v2MarkFail gd h
  | illVn n x => exact Laws.RoundTrip.illVn n x h
  | lWait n => exact Laws.RoundTrip.lWait n h
  | lMarkOk n gd => exact Laws.RoundTrip.lMarkOk n gd h
  | lMarkFail n gd => exact Laws.RoundTrip.lMarkFail n gd h
  | illCn n x => exact Laws.RoundTrip.illCn n x h
  | cWait n => exact Laws.RoundTrip.cWait n h
  | c4MarkOk gd => exact Laws.RoundTrip.c4MarkOk gd h
  | c4MarkFail gd => exact Laws.RoundTrip.c4MarkFail gd h
  | c6MarkOk gd => exact Laws.RoundTrip.c6MarkOk gd h
  | c6MarkFail gd => exact Laws.RoundTrip.c6MarkFail gd h
  | bit0 => exact Laws.RoundTrip.bit0 h
  | bit1 => exact Laws.RoundTrip.bit1 h

theorem rowOf_eq_some {w : BitVec 8} {r : ArmRow} (h : rowOf w = some r) : r ∈ armTable ∧ r.matchesWord w = true := by
  unfold rowOf at h
  have hm := List.find?_some h
  exact ⟨List.mem_of_find?_eq_some h, hm⟩

/-- A selector that decodes falls under a row, whose arm on this selector's free bits is well-formed. -/
theorem decodeSel_eq_ok {w : BitVec 8} {i : Instr} (h : decodeSel w = .ok i) :
    ∃ r ∈ armTable, r.matchesWord w = true ∧ r.build w = i ∧ i.wellFormed = true := by
  unfold decodeSel at h
  split at h
  case h_1 => cases h
  case h_2 r hr =>
    split at h
    case isTrue hwf =>
      cases h
      obtain ⟨hmem, hm⟩ := rowOf_eq_some hr
      exact ⟨r, hmem, hm, rfl, hwf⟩
    case isFalse => cases h

/-- R80: a row fixes the bits of its mask and builds its arm from the others, so the arm's word is the selector it was read
from; this holds of the selectors R83 excludes too. -/
theorem encode_build : ∀ r ∈ armTable, ∀ w : BitVec 8, r.matchesWord w = true → encode (r.build w) = .sel w := by
  decide +kernel

theorem encode_decodeSym : ∀ w : BitVec 1, (decodeSym w).wellFormed = true ∧ encode (decodeSym w) = .sym w := by
  decide

/-- Every word that decodes is the word of its instruction. -/
theorem encode_of_decode {w : Encoded} {i : Instr} (h : decode w = .ok i) : i.wellFormed = true ∧ encode i = w := by
  cases w with
  | sym w =>
    cases h
    exact encode_decodeSym w
  | sel w =>
    obtain ⟨r, hr, hm, rfl, hwf⟩ := decodeSel_eq_ok h
    exact ⟨hwf, encode_build r hr w hm⟩

/-! ## The rows of the arm table are disjoint -/

/-- Two rows demand different values of a bit that both masks fix. -/
def ArmRow.clash (r q : ArmRow) : Bool := r.mtch &&& q.mask != q.mtch &&& r.mask

/-- No selector matches two rows that clash. -/
theorem ArmRow.not_matchesWord_of_clash {r q : ArmRow} {w : BitVec 8} (h : r.clash q = true)
    (hr : r.matchesWord w = true) : q.matchesWord w = false := by
  rw [Bool.eq_false_iff]
  intro hq
  have hrw : w &&& r.mask = r.mtch := by simpa [ArmRow.matchesWord] using hr
  have hqw : w &&& q.mask = q.mtch := by simpa [ArmRow.matchesWord] using hq
  have hsame : r.mtch &&& q.mask = q.mtch &&& r.mask := by
    rw [← hrw, ← hqw, BitVec.and_assoc, BitVec.and_assoc, BitVec.and_comm r.mask]
  simp [ArmRow.clash, hsame] at h

/-- R81: each two rows clash. -/
theorem armTable_pairwise_clash : armTable.Pairwise (fun r q => r.clash q = true) := by decide

/-- In a table whose rows clash, a selector matches at most one row. -/
theorem length_filter_matchesWord_le_one {rows : List ArmRow} (h : rows.Pairwise (fun r q => r.clash q = true))
    (w : BitVec 8) : (rows.filter (fun r => r.matchesWord w)).length ≤ 1 := by
  induction h with
  | nil => simp
  | @cons r rows hr _ ih =>
    cases hm : r.matchesWord w with
    | false => simpa [hm] using ih
    | true =>
      have hrest : rows.filter (fun q => q.matchesWord w) = [] :=
        List.filter_eq_nil_iff.mpr fun q hq => by simp [ArmRow.not_matchesWord_of_clash (hr q hq) hm]
      simp [hm, hrest]

namespace Machine

/-! ## Steps and refusals -/

section
variable {i : Instr} {body : Bit → State → Except FaultCause State} {s : State} {b c : Bit}

theorem runArm_noBit (h : nextBit s = none) : runArm i body s = .refused .noBit := by
  simp [runArm, h]

/-- An arm that the step's selector does not decode to is refused. -/
theorem runArm_notSelected (hb : nextBit s = some b) (h : decode (.sel (selector s b)) ≠ .ok i) :
    runArm i body s = .refused .notSelected := by
  have hsel : ¬(i.wellFormed = true ∧ encode i = .sel (selector s b)) := by
    rintro ⟨hwf, he⟩
    exact h (he ▸ decode_encode hwf)
  simp [runArm, hb, hsel]

theorem symbolStep_noBit (h : nextBit s = none) : symbolStep b s = .refused .noBit := by
  simp [symbolStep, h]

theorem symbolStep_otherSymbol (hc : nextBit s = some c) (h : c ≠ b) : symbolStep b s = .refused .otherSymbol := by
  simp [symbolStep, hc, h]

end

/-- An instruction is run as a symbol or as an arm. -/
theorem exec_eq_symbolStep_or_runArm (i : Instr) :
    (i = .bit0 ∧ exec i = symbolStep false) ∨ (i = .bit1 ∧ exec i = symbolStep true) ∨
      ∃ body, exec i = runArm i body := by
  cases i with
  | bit0 => exact .inl ⟨rfl, rfl⟩
  | bit1 => exact .inr (.inl ⟨rfl, rfl⟩)
  | hMiss => refine .inr (.inr ?_); unfold exec execHMiss; exact ⟨_, rfl⟩
  | hHit => refine .inr (.inr ?_); unfold exec execHHit; exact ⟨_, rfl⟩
  | illVn => refine .inr (.inr ?_); unfold exec execIllVn; exact ⟨_, rfl⟩
  | illCn => refine .inr (.inr ?_); unfold exec execIllCn; exact ⟨_, rfl⟩
  | _ => exact .inr (.inr ⟨_, rfl⟩)

/-- A step without a symbol is a step without a bit. -/
theorem fetchSymbol_eq_none {s : State} : fetchSymbol s = none ↔ nextBit s = none := by
  simp [fetchSymbol]

end Machine

end Sys2Proof
end

section
/-! The obligations of `30_encoding.md`. -/

namespace Sys2Proof.Machine

/-- Settles O57: the round trip of each instruction, and each row's arm encoded back to the selector it was read from. -/
theorem decodeAndEncodeAgree : Obligations.DecodeAndEncodeAgree :=
  ⟨fun _ => decode_encode, fun _ _ => encode_of_decode⟩

/-- Settles O6: some arm is taken in every step, and its word is the step's selector. -/
theorem stepRunsSelectedArm : Obligations.StepRunsSelectedArm := by
  intro s b hb
  obtain ⟨i, t, hc⟩ := exists_armCase s b
  have hrun : exec i s = .next t := hc.exec_eq hb
  have hdec : decode (.sel (selector s b)) = .ok i := hc.selected ▸ decode_encode hc.wellFormed
  exact ⟨i, t, hdec, hc.wellFormed, hc.selected, (step_of_armCase hb hc).trans hrun.symm, hrun⟩

/-- Settles O5: a cycle that fetches no symbol is reset, halted or idle. -/
theorem stepRunsDecodedSymbol : Obligations.StepRunsDecodedSymbol := by
  intro s
  constructor
  · intro w i hw hi _
    cases hi
    simp [step, hw]
  · intro h
    rcases nextBit_none (fetchSymbol_eq_none.mp h) with ⟨hr, -⟩ | ⟨hr, hf, -⟩ | ⟨hr, hf, hq, hv, -⟩
    · rw [step_of_reset hr, hr]; rfl
    · rw [step_of_halted hr hf, hr]; rfl
    · rw [step_of_idle hr hf hq hv, hr]; rfl

/-- Settles O9: the refusals of the two ways an instruction is run. -/
theorem execRefusesWhatTheStepDoesNotRun : Obligations.ExecRefusesWhatTheStepDoesNotRun := by
  intro i s
  refine ⟨fun hb => ?_, fun b hb h0 h1 hsel => ?_, fun b hb => ?_⟩
  · rcases exec_eq_symbolStep_or_runArm i with ⟨-, he⟩ | ⟨-, he⟩ | ⟨body, he⟩ <;> rw [he]
    · exact symbolStep_noBit hb
    · exact symbolStep_noBit hb
    · exact runArm_noBit hb
  · rcases exec_eq_symbolStep_or_runArm i with ⟨h, -⟩ | ⟨h, -⟩ | ⟨body, he⟩
    · exact absurd h h0
    · exact absurd h h1
    · rw [he]; exact runArm_notSelected hb hsel
  · cases b with
    | false => exact symbolStep_otherSymbol (b := true) hb (by decide)
    | true => exact symbolStep_otherSymbol (b := false) hb (by decide)

/-- Settles O58: the rows clash pairwise, and the 256 selectors are counted. -/
theorem selectorTableIsUnambiguous : Obligations.SelectorTableIsUnambiguous :=
  ⟨length_filter_matchesWord_le_one armTable_pairwise_clash, by decide +kernel, by decide +kernel⟩

/-- Settles O60, by running the decoder on each word. -/
theorem writtenWordsDecode : Obligations.WrittenWordsDecode :=
  ⟨rfl, rfl, rfl, rfl, rfl, rfl, rfl, rfl, rfl, rfl⟩

end Sys2Proof.Machine
end

section
/-! The window update in its sequence form (R101), and the comparison (R102). -/

namespace Sys2Proof.Machine

/-- R25: with `WIN_LEN` at most 8, a window that is not short is full. -/
theorem winLen_lt_or_full {s : State} (h : windowWf s) : s.winLen < 8#4 ∨ s.winLen = 8#4 := by
  obtain ⟨h8, -⟩ := h
  exact h8.lt_or_eq.imp_right BitVec.eq_of_toNat_eq

/-- R101: the update appends to a short window and drops the oldest bit of a full one. -/
theorem windowNext_eq {s : State} (b : Bit) (h : windowWf s) :
    windowNext b s = (if s.winLen = 8#4 then s.windowSeq.tail else s.windowSeq) ++ [b] := by
  rcases winLen_lt_or_full h with hshort | hfull
  · rw [windowNext, if_pos hshort, if_neg (BitVec.ne_of_lt hshort)]
  · rw [windowNext, if_neg (by rw [hfull]; decide), if_pos hfull, List.drop_one]

/-- R101: read back from the vector and its length, the updated window is the updated sequence. -/
theorem windowSeq_observe {s : State} (b : Bit) (h : windowWf s) : (s.observe b).1.windowSeq = windowNext b s := by
  have hvector : (s.observe b).1.windowSeq = ((octetSeq s.win).drop 1 ++ [b]).drop (8 - (winLenNext s).toNat) := by
    rw [State.windowSeq, observe_win, observe_winLen, winNext_eq b h, octetSeq_shiftIn]
  rw [hvector, windowNext_eq b h, winLenNext_toNat h.1, State.windowSeq]
  rcases winLen_lt_or_full h with hshort | hfull
  · have hlt : s.winLen.toNat < 8 := hshort
    rw [if_neg (BitVec.ne_of_lt hshort), List.drop_append_of_le_length (by simp; omega), List.drop_drop,
      show 1 + (8 - min (s.winLen.toNat + 1) 8) = 8 - s.winLen.toNat by omega]
  · rw [if_pos hfull, hfull, List.drop_one]
    rfl

/-- R102: the comparison is of the updated window. -/
theorem observe_matched_iff (s : State) (b : Bit) : (s.observe b).2 = true ↔ (s.observe b).1.win = Config.marker := by
  rw [observe_matched, observe_win, beq_iff_eq]

end Sys2Proof.Machine
end

section
/-! The obligations of `40_bit_window_matcher.md`. -/

namespace Sys2Proof.Machine

/-- Settles O44: the updated window as a sequence, as a vector and as a length, and the comparison. -/
theorem observeShiftsThenCompares : Obligations.ObserveShiftsThenCompares := by
  intro s b h
  exact ⟨(windowSeq_observe b h).trans (windowNext_eq b h), winNext_eq b h, winLenNext_toNat h.1,
    windowWf_next b h, observe_matched_iff s b⟩

end Sys2Proof.Machine
end

section
/-! The accumulator at its capacity (R115) and at its checkpoints (R110, R113). -/

namespace Sys2Proof.Machine

section
variable {s t : State} {b : Bit} {i : Instr}

/-- R115: with a full buffer the arm of a legal pair outside `HUNTING` is the waiting one, and its append raises the fault. -/
theorem exists_armCase_full (hs : s.state ≠ .hunting) (hi : illegalPair s.state s.nsel = false)
    (hc : Config.accCap ≤ s.accLen) : ∃ i, ArmCase s b i (raiseFault s .accOverflow) := by
  cases hst : s.state with
  | hunting => exact absurd hst hs
  | verifying =>
    have hlow : s.nsel.isLow = true := by simpa [illegalPair, hst, NSel.isHigh] using hi
    exact ⟨_, .vWaitFull hst hlow hc⟩
  | locked => exact ⟨_, .lWaitFull hst hc⟩
  | lossCheck =>
    have hhigh : s.nsel.isHigh = true := by simpa [illegalPair, hst, NSel.isHigh] using hi
    exact ⟨_, .cWaitFull hst hhigh hc⟩

/-- R113: the four arms that emit a payload take it from the buffer in front of the marker their octet is. -/
theorem ArmCase.payload_cases (h : ArmCase s b i t) {q : BitSeq} (hq : Event.payloadRecovered q ∈ t.events) :
    ∃ k, (k = 504 ∨ k = 1016 ∨ k = 1528) ∧ s.accLen = k + 7 ∧ q = s.acc.take k ∧
      (s.acc ++ [b]).drop k = markerSeq := by
  cases h with
  | v2MarkOk hs hn hl hm => exact ⟨504, by decide, hl, by simpa using hq, hm⟩
  | lMarkOk hs hl hm => exact ⟨504, by decide, hl, by simpa using hq, hm⟩
  | c4MarkOk hs hn hl hm => exact ⟨1016, by decide, hl, by simpa using hq, hm⟩
  | c6MarkOk hs hn hl hm => exact ⟨1528, by decide, hl, by simpa using hq, hm⟩
  | _ => simp at hq

/-- Only an arm emits events: reset and a cycle without a bit emit none. -/
theorem armCase_of_event {e : Event} (h : step s = .next t) (he : e ∈ t.events) :
    ∃ b i, nextBit s = some b ∧ ArmCase s b i t := by
  rcases step_cases h with ⟨-, rfl⟩ | ⟨-, -, rfl⟩ | ⟨-, -, harm⟩
  · simp at he
  · simp at he
  · exact harm

/-- R110: the trailing octet of a buffer that the append brings to a length m. -/
theorem trailingOctet_append {m : Nat} (h : s.accLen + 1 = m) :
    trailingOctet (s.acc ++ [b]) = (s.acc ++ [b]).drop (m - 8) := by
  rw [trailingOctet_eq, ← h, List.length_append, List.length_singleton]

end

end Sys2Proof.Machine
end

section
/-! The obligations of `41_frame_accumulator.md`. -/

namespace Sys2Proof.Machine

/-- Settles O29: the waiting arm of the pair, which finds the buffer full. -/
theorem fullBufferRaisesAccOverflow : Obligations.FullBufferRaisesAccOverflow := by
  intro s b hb hs hi hl
  obtain ⟨i, harm⟩ := exists_armCase_full (b := b) hs hi hl.ge
  exact step_of_armCase hb harm

/-- Settles O41: the buffer with the step's bit, cut at the start of the marker that ends it. -/
theorem payloadIsBufferLessMarker : Obligations.PayloadIsBufferLessMarker := by
  intro s t q h hq
  obtain ⟨b, i, hb, harm⟩ := armCase_of_event h hq
  obtain ⟨k, hk, hl, rfl, hm⟩ := harm.payload_cases hq
  have hle : k ≤ s.accLen := by omega
  have hlen : (s.acc.take k).length = k := List.length_take_of_le hle
  refine ⟨by rwa [hlen], b, hb, ?_⟩
  calc s.acc ++ [b] = (s.acc ++ [b]).take k ++ (s.acc ++ [b]).drop k := (List.take_append_drop k _).symm
    _ = s.acc.take k ++ markerSeq := by rw [List.take_append_of_le_length hle, hm]

/-- Settles O46: the full buffer, the exact target, and every other length. -/
theorem advanceReportsAtExactTarget : Obligations.AdvanceReportsAtExactTarget := by
  intro s T b
  refine ⟨fun hfull => faAdvance_full T b hfull.ge, fun hc ht => ?_, fun hc ht => faAdvance_off b hc ht⟩
  rw [faAdvance_at b hc ht, trailingOctet_append ht]

end Sys2Proof.Machine
end

section
/-! The arms of `HUNTING` and `VERIFYING`: an arm's row in its word, the arm that an `exec` ran, and two runs of offered bits,
a stream without the marker and a frame that is verified. -/

namespace Sys2Proof

/-! ## The rows of the arms -/

/-- R80: the word of the arm i has the fixed bits of a row, `(SEL & mask) = mtch`. -/
def Instr.fits (i : Instr) (mask mtch : BitVec 8) : Bool :=
  match encode i with
  | .sel w => w &&& mask == mtch
  | .sym _ => false

/-- Whatever its operands, an arm's word has the fixed bits of the arm's row. -/
theorem Instr.fits_of_encode {i : Instr} {mask mtch w : BitVec 8} (h : i.fits mask mtch = true)
    (hw : encode i = .sel w) : w &&& mask = mtch := by
  simpa [Instr.fits, hw] using h

theorem fits_hMiss (n : NSel) : (Instr.hMiss n).fits 0xCF#8 0x00#8 = true := by cases n <;> decide

theorem fits_hHit (n : NSel) : (Instr.hHit n).fits 0xCF#8 0x01#8 = true := by cases n <;> decide

theorem fits_vWait {n : NSel} (h : n.isLow = true) : (Instr.vWait n).fits 0xEF#8 0x40#8 = true := by
  rcases NSel.isLow_cases h with rfl | rfl <;> decide

theorem fits_v1GuardFail (x : Bit) : (Instr.v1GuardFail x).fits 0xFB#8 0x48#8 = true := by cases x <;> decide

theorem fits_v2MarkFail (x : Bit) : (Instr.v2MarkFail x).fits 0xFD#8 0x58#8 = true := by cases x <;> decide

theorem fits_illVn {n : NSel} (h : n.isHigh = true) : (Instr.illVn n 0#4).fits 0xE0#8 0x60#8 = true := by
  rcases NSel.isHigh_cases h with rfl | rfl <;> decide

namespace Machine

/-! ## An arm run by itself -/

section
variable {s t : State} {b : Bit} {i : Instr}

/-- The arm taken in a step: the selector is in the arm's row, and the arm run by itself leaves the step's state. -/
theorem ArmCase.selector_and_exec (h : ArmCase s b i t) (hb : nextBit s = some b) {mask mtch : BitVec 8}
    (hi : i.fits mask mtch = true) : selector s b &&& mask = mtch ∧ exec i s = .next t :=
  ⟨Instr.fits_of_encode hi h.selected, h.exec_eq hb⟩

/-- An arm that answers a next state is the arm taken in the step. -/
theorem armCase_of_exec (h : exec i s = .next t) (h0 : i ≠ .bit0 := by simp) (h1 : i ≠ .bit1 := by simp) :
    ∃ b, nextBit s = some b ∧ ArmCase s b i t := by
  obtain ⟨b, j, hb, harm, rfl | ⟨hi, -⟩ | ⟨hi, -⟩⟩ := exec_cases h
  · exact ⟨b, hb, harm⟩
  · exact absurd hi h0
  · exact absurd hi h1

/-- R110: an append stores a bit at `ACC_LEN` and nowhere else. -/
theorem getElem?_append_of_ne {a : Nat} (b : Bit) (h : a ≠ s.accLen) : (s.acc ++ [b])[a]? = s.accBit a := by
  rw [State.accBit]
  rcases Nat.lt_or_gt_of_ne h with hlt | hgt
  · exact List.getElem?_append_left hlt
  · rw [List.getElem?_eq_none hgt.le, List.getElem?_eq_none (by simpa using hgt)]

end

/-! ## A stream without the marker -/

/-- A ready block in `HUNTING` whose window, followed by the bits still to be offered, does not hold the marker at any
offset. -/
structure MarkerFree (s : State) (bits : BitSeq) : Prop where
  state : s.state = .hunting
  rq : s.rq = []
  fault : s.fault = false
  window : windowWf s
  supply : s.supply = bits.map PortIn.offer
  free : ¬ markerSeq <:+: s.windowSeq ++ bits

section
variable {s : State} {b : Bit} {bits : BitSeq}

/-- R101: what the window sequence and the bits to come hold after a bit is observed, they held before. -/
theorem windowNext_append_suffix (hw : windowWf s) : windowNext b s ++ bits <:+ s.windowSeq ++ b :: bits := by
  rw [windowNext_eq b hw, List.append_assoc, List.singleton_append]
  split
  · exact ⟨s.windowSeq.take 1, by rw [← List.append_assoc, ← List.drop_one, List.take_append_drop]⟩
  · exact List.suffix_rfl

/-- R102: a window vector that equals the marker holds the marker's bits as its sequence. -/
theorem windowSeq_of_marker (hw : windowWf s) (hm : s.win = Config.marker) : s.windowSeq = markerSeq := by
  obtain ⟨h8, hlt⟩ := hw
  rw [State.windowSeq, winLen_of_marker h8 hlt hm, hm]
  rfl

/-- R131: a marker-free stream misses at its next bit and stays marker-free. -/
theorem MarkerFree.step_cons (h : MarkerFree s (b :: bits)) :
    ∃ t, step s = .next t ∧ t.events = [] ∧ MarkerFree t bits := by
  have ho : Offered s b (bits.map PortIn.offer) := ⟨h.rq, h.fault, h.supply⟩
  have hfree : ¬ markerSeq <:+: windowNext b s ++ bits := fun hm =>
    h.free (hm.trans (windowNext_append_suffix h.window).isInfix)
  have hmiss : winNext b s ≠ Config.marker := by
    intro hm
    have hseq : windowNext b s = markerSeq :=
      (windowSeq_observe b h.window).symm.trans (windowSeq_of_marker (windowWf_next b h.window) hm)
    exact hfree (hseq ▸ (List.prefix_append _ _).isInfix)
  refine ⟨_, step_of_armCase ho.nextBit (.hMiss h.state hmiss), rfl, h.state, ?_, h.fault,
    windowWf_next b h.window, ho.nextSupply, ?_⟩
  · show s.rq.tail = []
    rw [h.rq]; rfl
  · rwa [← windowSeq_observe b h.window] at hfree

/-- R181: with the stream at its end every edge is idle. -/
theorem MarkerFree.step_nil (h : MarkerFree s []) : ∃ t, step s = .next t ∧ t.events = [] ∧ MarkerFree t [] := by
  have hs : s.supply = [] := h.supply
  have hkind : stepKind s = .idle := by simp [stepKind, State.pins, hs, h.fault, h.rq]
  have hnext : nextSupply s = [] := by simp [nextSupply, hkind, hs, holdOffer]
  exact ⟨nextCycle s, step_of_idle (by simp [State.pins, hs]) h.fault h.rq (by simp [State.pins, hs]), rfl,
    h.state, h.rq, h.fault, h.window, hnext, h.free⟩

/-- R131: no run on a marker-free stream leaves `HUNTING` or emits an event. -/
theorem MarkerFree.stays_hunting (k : Nat) : ∀ {s : State} {bits : BitSeq}, MarkerFree s bits →
    (runFor k s).1 = [] ∧ (runFor k s).2.state = .hunting := by
  induction k with
  | zero => intro s bits h; exact ⟨rfl, h.state⟩
  | succ k ih =>
    intro s bits h
    have hstep : ∃ t rest, step s = .next t ∧ t.events = [] ∧ MarkerFree t rest := by
      cases bits with
      | nil => obtain ⟨t, ht⟩ := h.step_nil; exact ⟨t, [], ht⟩
      | cons b bits => obtain ⟨t, ht⟩ := h.step_cons; exact ⟨t, bits, ht⟩
    obtain ⟨t, rest, hst, hev, ht⟩ := hstep
    simpa only [runFor, hst, hev, List.nil_append] using ih ht

end

/-! ## A frame of offered bits in `VERIFYING` -/

/-- A ready block in `VERIFYING`, one frame short of its next checkpoint, and the frame l offered, `rest` after it. -/
structure FrameAhead (s : State) (l : BitSeq) (rest : List PortIn) : Prop where
  state : s.state = .verifying
  row : (s.nsel = .n1 ∧ s.accLen = 0) ∨ (s.nsel = .n2 ∧ s.accLen = 256)
  rq : s.rq = []
  fault : s.fault = false
  supply : s.supply = l.map PortIn.offer ++ rest
  length : l.length = 256

/-- s once the bits q have been appended and only the last bit of the frame, b, is offered. -/
def State.atLastBit (s : State) (q : BitSeq) (b : Bit) (rest : List PortIn) : State :=
  { s with acc := s.acc ++ q, supply := PortIn.offer b :: rest, events := [] }

section
variable {s : State} {l : BitSeq} {rest : List PortIn}

/-- R112: of a frame, all bits but the last are appended, and the last one's step takes the arm of the checkpoint. -/
theorem FrameAhead.runFor_eq (h : FrameAhead s l rest) :
    ∃ q b, l = q ++ [b] ∧ q.length = 255 ∧ nextSupply (s.atLastBit q b rest) = rest ∧
      ∀ i t, ArmCase (s.atLastBit q b rest) b i t → runFor 256 s = (t.events, t) := by
  obtain ⟨hst, hrow, hq, hf, hs, hl⟩ := h
  obtain rfl | ⟨q, b, rfl⟩ := l.eq_nil_or_concat'
  · cases hl
  have hlen : q.length = 255 := by simpa using hl
  have hlast : Offered (s.atLastBit q b rest) b rest := ⟨hq, hf, rfl⟩
  refine ⟨q, b, rfl, hlen, hlast.nextSupply, fun i t harm => ?_⟩
  have hwait : WaitsTo s (s.accLen + 255) := by
    rcases hrow with ⟨hn, ha⟩ | ⟨hn, ha⟩ <;> rw [WaitsTo, ha]
    · exact ⟨by decide, by decide, .inl ⟨hst, hn, rfl⟩⟩
    · exact ⟨by decide, by decide, .inr (.inl ⟨hst, hn, by decide, rfl⟩)⟩
  have hfirst : runFor 255 s = ([], s.atLastBit q b rest) := by
    have hrun := run_wait (PortIn.offer b :: rest) _ q s hwait (by omega) hq hf (by simpa using hs)
    rwa [hlen, if_neg (List.ne_nil_of_length_eq_add_one hlen)] at hrun
  rw [show 256 = 255 + 1 from rfl, runFor_add, hfirst, runFor_one (step_of_armCase hlast.nextBit harm),
    List.nil_append]

/-- R134: a first frame with its guard bit 1 stays in the buffer, and n is 2. -/
theorem FrameAhead.guardOk (h : FrameAhead s l rest) (hn : s.nsel = .n1) (hacc : s.acc = [])
    (hg : l[249]? = some true) :
    runFor 256 s = ([], { s with acc := l, nsel := .n2, supply := rest, events := [] }) := by
  obtain ⟨q, b, rfl, hlen, hsup, hrun⟩ := h.runFor_eq
  rw [List.getElem?_append_left (by omega)] at hg
  rw [hrun _ _ (.v1GuardOk h.state hn (by simp [State.atLastBit, hacc, hlen])
    (by simpa [State.atLastBit, State.accBit, hacc] using hg)), hsup]
  simp [State.atLastBit, hacc, h.rq]

/-- R135: a first frame with its guard bit 0 is moved to the queue. -/
theorem FrameAhead.guardFail (h : FrameAhead s l rest) (hn : s.nsel = .n1) (hacc : s.acc = [])
    (hg : l[249]? = some false) :
    runFor 256 s = ([.stateChanged .hunting],
      { s with state := .hunting, rq := l, supply := rest, events := [.stateChanged .hunting] }) := by
  obtain ⟨q, b, rfl, hlen, hsup, hrun⟩ := h.runFor_eq
  rw [List.getElem?_append_left (by omega)] at hg
  rw [hrun _ _ (.v1GuardFail h.state hn (by simp [State.atLastBit, hacc, hlen])
    (by simpa [State.atLastBit, State.accBit, hacc] using hg)), hsup]
  simp [State.atLastBit, hacc, hn]

/-- R136: a second frame that ends with the marker is recovered with the first, less the marker. -/
theorem FrameAhead.markOk (h : FrameAhead s l rest) (hn : s.nsel = .n2) (ha : s.accLen = 256)
    (hm : (s.acc ++ l).drop 504 = markerSeq) :
    runFor 256 s = ([.payloadRecovered ((s.acc ++ l).take 504), .stateChanged .locked],
      { s with state := .locked, nsel := .n1, acc := [], supply := rest,
               events := [.payloadRecovered ((s.acc ++ l).take 504), .stateChanged .locked] }) := by
  obtain ⟨q, b, rfl, hlen, hsup, hrun⟩ := h.runFor_eq
  have hl : (s.acc ++ q).length = 511 := by rw [List.length_append, hlen, show s.acc.length = 256 from ha]
  rw [← List.append_assoc] at hm ⊢
  rw [hrun _ _ (.v2MarkOk h.state hn hl hm), hsup, List.take_append_of_le_length (by omega)]
  simp [State.atLastBit, h.rq]

/-- R137: a second frame that does not end with the marker is moved to the queue behind the first. -/
theorem FrameAhead.markFail (h : FrameAhead s l rest) (hn : s.nsel = .n2) (ha : s.accLen = 256)
    (hm : (s.acc ++ l).drop 504 ≠ markerSeq) :
    runFor 256 s = ([.stateChanged .hunting],
      { s with state := .hunting, nsel := .n1, acc := [], rq := s.acc ++ l, supply := rest,
               events := [.stateChanged .hunting] }) := by
  obtain ⟨q, b, rfl, hlen, hsup, hrun⟩ := h.runFor_eq
  have hl : (s.atLastBit q b rest).accLen = 511 := by
    rw [State.accLen, State.atLastBit, List.length_append, hlen, show s.acc.length = 256 from ha]
  obtain ⟨g, hg⟩ := accBit_some (s := s.atLastBit q b rest) (a := 505) (by omega)
  rw [← List.append_assoc] at hm ⊢
  rw [hrun _ _ (.v2MarkFail g h.state hn hl hm hg), hsup]
  simp [State.atLastBit]

/-- R134: two frames are offered, and the guard bit of the first is 1: the first is kept, and the second is ahead. -/
theorem exists_second_frame {bits : BitSeq} (hst : s.state = .verifying) (hn : s.nsel = .n1) (hacc : s.acc = [])
    (hq : s.rq = []) (hf : s.fault = false) (hs : s.supply = bits.map PortIn.offer ++ rest)
    (hl : bits.length = 512) (hg : bits[249]? = some true) :
    ∃ l r, bits = l ++ r ∧ l.length = 256 ∧
      runFor 256 s = ([], { s with acc := l, nsel := .n2, supply := r.map PortIn.offer ++ rest, events := [] }) ∧
      FrameAhead { s with acc := l, nsel := .n2, supply := r.map PortIn.offer ++ rest, events := [] } r rest := by
  have hfirst : FrameAhead s (bits.take 256) ((bits.drop 256).map PortIn.offer ++ rest) := by
    refine ⟨hst, .inl ⟨hn, by simp [hacc]⟩, hq, hf, ?_, by simp [hl]⟩
    rw [← List.append_assoc, ← List.map_append, List.take_append_drop, hs]
  exact ⟨_, _, (List.take_append_drop 256 bits).symm, hfirst.length,
    hfirst.guardOk hn hacc (by rwa [List.getElem?_take_of_lt (by decide)]),
    hst, .inr ⟨rfl, hfirst.length⟩, hq, hf, rfl, by simp [hl]⟩

end

end Machine

end Sys2Proof
end

section
/-! The obligations of `43_fsm_hunting_verifying.md`. -/

namespace Sys2Proof.Machine

/-- Settles O12: the arm of a window that is not the marker. -/
theorem hMissOnlyUpdatesWindow : Obligations.HMissOnlyUpdatesWindow := by
  intro s b hb hs hw
  exact (ArmCase.hMiss hs hw).selector_and_exec hb (fits_hMiss s.nsel)

/-- Settles O13: the arm of a window that is the marker. -/
theorem hHitEntersVerifying : Obligations.HHitEntersVerifying := by
  intro s b hb hs hw
  have h := (ArmCase.hHit hs hw).selector_and_exec hb (fits_hHit s.nsel)
  rwa [hw] at h

/-- Settles O14: below the target the append, on a full buffer its fault. -/
theorem vWaitAppendsOneBit : Obligations.VWaitAppendsOneBit := by
  intro s b hb hs hn
  have hlow : s.nsel.isLow = true := by rcases hn with hn | hn <;> rw [hn] <;> rfl
  refine ⟨fun hc hl => (ArmCase.vWait hs hlow hc hl).selector_and_exec hb (fits_vWait hlow), fun hfull => ?_⟩
  exact (ArmCase.vWaitFull hs hlow hfull.ge).exec_eq hb

/-- Settles O15: the checkpoint of n = 1 with its guard bit 1. -/
theorem v1GuardOkKeepsBuffer : Obligations.V1GuardOkKeepsBuffer := by
  intro s b hb hs hn hl hg
  exact (ArmCase.v1GuardOk hs hn hl hg).selector_and_exec hb (by decide)

/-- Settles O16: the checkpoint of n = 1 with its guard bit 0. -/
theorem v1GuardFailReplaysBuffer : Obligations.V1GuardFailReplaysBuffer := by
  intro s b hb hs hn hl hg
  exact (ArmCase.v1GuardFail hs hn hl hg).selector_and_exec hb (fits_v1GuardFail _)

/-- Settles O17: the checkpoint of n = 2 with the marker. -/
theorem v2MarkOkLocks : Obligations.V2MarkOkLocks := by
  intro s b hb hs hn hl hm
  exact (ArmCase.v2MarkOk hs hn hl hm).selector_and_exec hb (by decide)

/-- Settles O18: the checkpoint of n = 2 without the marker. -/
theorem v2MarkFailReplaysBuffer : Obligations.V2MarkFailReplaysBuffer := by
  intro s b g hb hs hn hl hm hg
  exact (ArmCase.v2MarkFail g hs hn hl hm hg).selector_and_exec hb (fits_v2MarkFail g)

/-- Settles O27: the arm of an illegal pair, which does not look at the buffer. -/
theorem illVnRaisesFault : Obligations.IllVnRaisesFault := by
  intro s b hb hs hn
  have hhigh : s.nsel.isHigh = true := by rcases hn with hn | hn <;> rw [hn] <;> rfl
  exact (ArmCase.illVn hs hhigh).selector_and_exec hb (fits_illVn hhigh)

/-- Settles O33: an append, or the fault of a full buffer. -/
theorem waitArmsFrame : Obligations.WaitArmsFrame := by
  intro n s t h
  have harm : ∃ b i, ArmCase s b i t ∧ (i = .vWait n ∨ i = .lWait n ∨ i = .cWait n) := by
    rcases h with h | h | h <;> obtain ⟨b, -, harm⟩ := armCase_of_exec h
    · exact ⟨b, _, harm, .inl rfl⟩
    · exact ⟨b, _, harm, .inr (.inl rfl)⟩
    · exact ⟨b, _, harm, .inr (.inr rfl)⟩
  obtain ⟨b, i, harm, hi⟩ := harm
  cases harm with
  | vWait _ _ hc | lWait _ hc | cWait _ _ hc =>
    exact ⟨rfl, rfl, rfl, rfl, rfl, fun a ha => getElem?_append_of_ne b ha, fun _ => ⟨rfl, rfl, fun _ => rfl⟩,
      fun hfull => absurd hfull hc.ne⟩
  | vWaitFull _ _ hc | lWaitFull _ hc | cWaitFull _ _ hc =>
    exact ⟨rfl, rfl, rfl, rfl, rfl, fun _ _ => rfl, fun hlt => absurd hlt hc.not_gt, fun _ _ => ⟨rfl, rfl⟩⟩
  | _ => simp at hi

/-- Settles O34: a checkpoint that keeps the buffer appends as a waiting arm does. -/
theorem keepingArmsFrame : Obligations.KeepingArmsFrame := by
  rintro n x s t (h | h | h) <;> obtain ⟨b, -, harm⟩ := armCase_of_exec h <;> cases harm
  case inl.v1GuardOk | inr.inr.c4MarkFail =>
    exact ⟨rfl, rfl, rfl, rfl, fun a ha => getElem?_append_of_ne b ha, fun _ => rfl, fun _ => rfl⟩
  case inr.inl.lMarkFail hs _ _ _ =>
    exact ⟨rfl, rfl, rfl, rfl, fun a ha => getElem?_append_of_ne b ha, fun _ => rfl, fun hne => absurd hs hne⟩

/-- Settles O35, for each clause by the arms it names. -/
theorem payloadArmsFrame : Obligations.PayloadArmsFrame := by
  intro n x s t
  refine ⟨fun h => ?_, fun h => ?_, ?_, ?_⟩
  · obtain ⟨b, -, harm⟩ := armCase_of_exec h
    cases harm
    exact fun _ => rfl
  · obtain ⟨b, -, harm⟩ := armCase_of_exec h
    cases harm
    exact ⟨rfl, rfl⟩
  · rintro (h | h | h) <;> obtain ⟨b, -, harm⟩ := armCase_of_exec h <;> cases harm <;>
      exact fun _ => rfl
  · rintro (h | h | h | h) <;> obtain ⟨b, -, harm⟩ := armCase_of_exec h <;> cases harm <;>
      exact ⟨rfl, rfl, rfl, rfl, fun _ => rfl⟩

/-- Settles O36: the queue after a rejection is the buffer with the step's bit. -/
theorem failingArmsFrame : Obligations.FailingArmsFrame := by
  intro x s t
  refine ⟨fun h a ha => ?_, fun h a ha => ?_, ?_, fun h => ?_, ?_⟩
  · obtain ⟨b, -, harm⟩ := armCase_of_exec h
    cases harm with
    | v1GuardFail hs hn hl hg =>
      have hlen : (s.acc ++ [b]).length = 256 := by simpa using hl
      exact List.getElem?_eq_none (hlen.trans_le ha)
  · obtain ⟨b, -, harm⟩ := armCase_of_exec h
    cases harm with
    | v2MarkFail g hs hn hl hm hg =>
      have hlen : (s.acc ++ [b]).length = 512 := by simpa using hl
      exact List.getElem?_eq_none (hlen.trans_le ha)
  · rintro (h | h) a ha <;> obtain ⟨b, -, harm⟩ := armCase_of_exec h <;> cases harm <;>
      exact List.getElem?_append_left ha
  · obtain ⟨b, -, harm⟩ := armCase_of_exec h
    cases harm
    exact fun _ => rfl
  · rintro (h | h | h) <;> obtain ⟨b, -, harm⟩ := armCase_of_exec h <;> cases harm <;>
      exact ⟨rfl, rfl, rfl, rfl, fun _ => rfl⟩

/-- Settles O37: both arms observe the bit and keep the fault registers; only `H_HIT` writes more. -/
theorem huntingArmsFrame : Obligations.HuntingArmsFrame := by
  intro n s t
  constructor
  · intro h
    obtain ⟨b, -, harm⟩ := armCase_of_exec h
    cases harm
    exact ⟨rfl, rfl, rfl, fun _ => rfl⟩
  · rintro (h | h) <;> obtain ⟨b, -, harm⟩ := armCase_of_exec h <;> cases harm <;>
      exact ⟨rfl, rfl, fun _ => rfl⟩

/-- Settles O38: the arms of the illegal pairs only raise their fault. -/
theorem illegalArmsFrame : Obligations.IllegalArmsFrame := by
  rintro n x s t (h | h) <;> obtain ⟨b, -, harm⟩ := armCase_of_exec h <;> cases harm <;>
    exact ⟨⟨rfl, rfl, rfl, rfl, rfl, rfl, rfl, rfl⟩, rfl⟩

/-- Settles O54: after reset the window is empty, so it and the stream hold the marker only where the stream does. -/
theorem markerFreeStreamStaysHunting : Obligations.MarkerFreeStreamStaysHunting := by
  intro bits k h
  have hfree : MarkerFree { State.reset with supply := bits.map PortIn.offer } bits :=
    ⟨rfl, rfl, rfl, ⟨Nat.zero_le _, Nat.one_pos⟩, rfl, h⟩
  exact hfree.stays_hunting k

/-- Settles O55: the bits are one frame or two, and each clause is what the checkpoints at their ends do. -/
theorem verificationInStreamTerms : Obligations.VerificationInStreamTerms := by
  intro s bits rest hst hn hacc hq hf hs
  refine ⟨fun hl hg hm => ?_, fun hl hg => ?_, fun hl hg hm => ?_⟩
  · obtain ⟨l, r, rfl, hll, hkept, hsecond⟩ := exists_second_frame hst hn hacc hq hf hs hl hg
    rw [show 512 = 256 + 256 from rfl, runFor_add, hkept, hsecond.markOk rfl hll hm]
    simp [hn, hacc]
  · exact FrameAhead.guardFail ⟨hst, .inl ⟨hn, by simp [hacc]⟩, hq, hf, hs, hl⟩ hn hacc hg
  · obtain ⟨l, r, rfl, hll, hkept, hsecond⟩ := exists_second_frame hst hn hacc hq hf hs hl hg
    rw [show 512 = 256 + 256 from rfl, runFor_add, hkept, hsecond.markFail rfl hll hm]
    simp [hn, hacc]

end Sys2Proof.Machine
end

section
/-! The arms of `LOCKED` and `LOSS_CHECK`: their rows, and a run of offered bits that crosses the checkpoints of a loss. -/

namespace Sys2Proof

/-! ## The rows of the arms -/

theorem fits_lWait (n : NSel) : (Instr.lWait n).fits 0xCF#8 0x80#8 = true := by cases n <;> decide

theorem fits_lMarkOk (n : NSel) : (Instr.lMarkOk n false).fits 0xCD#8 0x8C#8 = true := by cases n <;> decide

theorem fits_lMarkFail (n : NSel) (x : Bit) : (Instr.lMarkFail n x).fits 0xCD#8 0x88#8 = true := by
  cases n <;> cases x <;> decide

theorem fits_cWait {n : NSel} (h : n.isHigh = true) : (Instr.cWait n).fits 0xEF#8 0xE0#8 = true := by
  rcases NSel.isHigh_cases h with rfl | rfl <;> decide

theorem fits_c4MarkFail (x : Bit) : (Instr.c4MarkFail x).fits 0xFD#8 0xE8#8 = true := by cases x <;> decide

theorem fits_c6MarkFail (x : Bit) : (Instr.c6MarkFail x).fits 0xFD#8 0xF8#8 = true := by cases x <;> decide

theorem fits_illCn {n : NSel} (h : n.isLow = true) : (Instr.illCn n 0#4).fits 0xE0#8 0xC0#8 = true := by
  rcases NSel.isLow_cases h with rfl | rfl <;> decide

namespace Machine

/-! ## Offered bits on their way into the buffer -/

/-- s once the first k of the bits stand in the buffer, the others still offered and `rest` after them, and the last step has
emitted `evs`. -/
def State.fed (s : State) (bits : BitSeq) (rest : List PortIn) (k : Nat) (evs : List Event) : State :=
  { s with acc := bits.take k, supply := (bits.drop k).map PortIn.offer ++ rest, events := evs }

section
variable {s u : State} {bits : BitSeq} {rest : List PortIn} {evs : List Event} {k : Nat}

theorem fed_zero (hacc : s.acc = []) (hs : s.supply = bits.map PortIn.offer ++ rest) :
    s.fed bits rest 0 s.events = s := by
  rw [State.fed, List.take_zero, List.drop_zero, ← hacc, ← hs]

theorem fed_accLen (hk : k ≤ bits.length) : (s.fed bits rest k evs).accLen = k := List.length_take_of_le hk

/-- R110: a step that finds k bits in the buffer makes them k + 1. -/
theorem fed_append (hk : k < bits.length) : (s.fed bits rest k evs).acc ++ [bits[k]] = bits.take (k + 1) :=
  List.take_concat_get' bits k hk

theorem fed_offered (hq : s.rq = []) (hf : s.fault = false) (hk : k < bits.length) :
    Offered (s.fed bits rest k evs) bits[k] ((bits.drop (k + 1)).map PortIn.offer ++ rest) :=
  ⟨hq, hf, by rw [State.fed, List.drop_eq_getElem_cons hk]; rfl⟩

section
variable {L : Nat} (hw : WaitsTo (s.fed bits rest k evs) L) (hq : s.rq = []) (hf : s.fault = false)
include hw hq hf

/-- R150, R153: up to the next checkpoint the bits are appended, and nothing is emitted. -/
theorem run_fed {j : Nat} (hkj : k ≤ j) (hj : j ≤ L) (hl : j ≤ bits.length) :
    ∃ evs', runFor (j - k) (s.fed bits rest k evs) = ([], s.fed bits rest j evs') := by
  have hlen : ((bits.drop k).take (j - k)).length = j - k := by
    rw [List.length_take, List.length_drop]; omega
  have hsup : (s.fed bits rest k evs).supply = ((bits.drop k).take (j - k)).map PortIn.offer ++
      ((bits.drop j).map PortIn.offer ++ rest) := by
    have hsplit := List.take_append_drop (j - k) (bits.drop k)
    rw [List.drop_drop, Nat.add_sub_cancel' hkj] at hsplit
    rw [← List.append_assoc, ← List.map_append, hsplit]
    rfl
  have hacc : (s.fed bits rest k evs).acc ++ (bits.drop k).take (j - k) = bits.take j := by
    rw [State.fed, ← List.take_add, Nat.add_sub_cancel' hkj]
  have hrun := run_wait _ L _ _ hw (by rw [hlen, fed_accLen (hkj.trans hl)]; omega) hq hf hsup
  rw [hlen, hacc] at hrun
  exact ⟨_, hrun⟩

/-- R112: the bits before the checkpoint are appended, and the step of the bit that reaches it leaves u. -/
theorem run_fed_checkpoint (hk : k ≤ L) (hl : L ≤ bits.length)
    (hstep : ∀ evs', step (s.fed bits rest L evs') = .next u) :
    runFor (L - k + 1) (s.fed bits rest k evs) = (u.events, u) := by
  obtain ⟨evs', hrun⟩ := run_fed hw hq hf hk le_rfl hl
  rw [runFor_add, hrun, runFor_one (hstep evs'), List.nil_append]

end

/-! ## The three checkpoints of a loss -/

/-- The octet that the bit at k completes is not the marker. -/
abbrev BadOctet (bits : BitSeq) (k : Nat) : Prop := (bits.drop (k - 7)).take 8 ≠ markerSeq

section
variable (hq : s.rq = []) (hf : s.fault = false)
include hq hf

/-- The bit at k completes a bad octet: the step takes the arm that the octet's guard bit g and the mismatch select. -/
theorem step_fed_of_badOctet {arm : Bit → Instr} (h7 : 7 ≤ k) (hk : k < bits.length) (hbad : BadOctet bits k)
    (harm : ∀ g, (s.fed bits rest k evs).accLen = k →
      ((s.fed bits rest k evs).acc ++ [bits[k]]).drop (k - 7) ≠ markerSeq →
      (s.fed bits rest k evs).accBit (k - 6) = some g → ArmCase (s.fed bits rest k evs) bits[k] (arm g) u) :
    step (s.fed bits rest k evs) = .next u := by
  have hl : (s.fed bits rest k evs).accLen = k := fed_accLen hk.le
  obtain ⟨g, hg⟩ := accBit_some (s := s.fed bits rest k evs) (a := k - 6) (by omega)
  refine step_of_armCase (fed_offered hq hf hk).nextBit (harm g hl ?_ hg)
  rwa [fed_append hk, List.drop_take, show k + 1 - (k - 7) = 8 by omega]

/-- R152: the first bad octet leads to `LOSS_CHECK` with the buffer kept. -/
theorem step_fed_lMarkFail (hs : s.state = .locked) (hk : 511 < bits.length) (hbad : BadOctet bits 511) :
    step (s.fed bits rest 511 evs) =
      .next ({ s with state := .lossCheck, nsel := .n4 }.fed bits rest 512 [.stateChanged .lossCheck]) := by
  rw [step_fed_of_badOctet hq hf (by decide) hk hbad fun g => .lMarkFail g hs,
    (fed_offered hq hf hk).nextSupply, fed_append hk]
  simp [State.fed, hq]

/-- R156: the second bad octet, at n = 4, sets n = 6 with the buffer kept. -/
theorem step_fed_c4MarkFail (hs : s.state = .lossCheck) (hn : s.nsel = .n4) (hk : 1023 < bits.length)
    (hbad : BadOctet bits 1023) :
    step (s.fed bits rest 1023 evs) = .next ({ s with nsel := .n6 }.fed bits rest 1024 []) := by
  rw [step_fed_of_badOctet hq hf (by decide) hk hbad fun g => .c4MarkFail g hs hn,
    (fed_offered hq hf hk).nextSupply, fed_append hk]
  simp [State.fed, hq]

/-- R157: the third bad octet, at n = 6, ends in `HUNTING` with both stores empty. -/
theorem step_fed_c6MarkFail (hs : s.state = .lossCheck) (hn : s.nsel = .n6) (hk : 1535 < bits.length)
    (hbad : BadOctet bits 1535) :
    step (s.fed bits rest 1535 evs) = .next { s with
      state := .hunting, nsel := .n1, acc := [], events := [.stateChanged .hunting],
      supply := (bits.drop 1536).map PortIn.offer ++ rest } := by
  rw [step_fed_of_badOctet hq hf (by decide) hk hbad fun g => .c6MarkFail g hs hn,
    (fed_offered hq hf hk).nextSupply]
  simp [State.fed, hq]

end

/-- A ready block in `LOCKED` with an empty buffer, and six frames offered, `rest` after them, that are bad at the three
monitored octets. -/
structure LossAhead (s : State) (bits : BitSeq) (rest : List PortIn) : Prop where
  state : s.state = .locked
  acc : s.acc = []
  rq : s.rq = []
  fault : s.fault = false
  supply : s.supply = bits.map PortIn.offer ++ rest
  length : bits.length = 1536
  first : BadOctet bits 511
  second : BadOctet bits 1023
  third : BadOctet bits 1535

section
variable (h : LossAhead s bits rest)
include h

/-- R150: in `LOCKED` the first checkpoint is at bit 512. -/
theorem LossAhead.waits_locked (evs : List Event) : WaitsTo (s.fed bits rest 0 evs) 511 :=
  ⟨Nat.zero_le _, by decide, .inr (.inr (.inl ⟨h.state, rfl⟩))⟩

/-- R153: with n = 4 the second is at bit 1024. -/
theorem LossAhead.waits_n4 (evs : List Event) :
    WaitsTo ({ s with state := .lossCheck, nsel := .n4 }.fed bits rest 512 evs) 1023 := by
  rw [WaitsTo, fed_accLen (by rw [h.length]; decide)]
  exact ⟨by decide, by decide, .inr (.inr (.inr (.inl ⟨rfl, rfl, rfl⟩)))⟩

/-- R153: with n = 6 the third is at bit 1536. -/
theorem LossAhead.waits_n6 (evs : List Event) :
    WaitsTo ({ s with state := .lossCheck, nsel := .n6 }.fed bits rest 1024 evs) 1535 := by
  rw [WaitsTo, fed_accLen (by rw [h.length]; decide)]
  exact ⟨by decide, by decide, .inr (.inr (.inr (.inr ⟨rfl, rfl, le_rfl, rfl⟩)))⟩

/-- R160: short of bit 512 the bits are in the buffer, and nothing else has happened. -/
theorem LossAhead.run_locked (hk : k < 512) : ∃ evs, runFor k s = ([], s.fed bits rest k evs) := by
  have hlen := h.length
  have hrun := run_fed (h.waits_locked s.events) h.rq h.fault (Nat.zero_le k) (Nat.le_of_lt_succ hk) (by omega)
  rwa [fed_zero h.acc h.supply] at hrun

/-- R160: bit 512. -/
theorem LossAhead.run_512 : runFor 512 s = ([.stateChanged .lossCheck],
    { s with state := .lossCheck, nsel := .n4 }.fed bits rest 512 [.stateChanged .lossCheck]) := by
  have hlen := h.length
  have hrun := run_fed_checkpoint (h.waits_locked s.events) h.rq h.fault (by decide) (by omega)
    fun _ => step_fed_lMarkFail h.rq h.fault h.state (by omega) h.first
  rwa [fed_zero h.acc h.supply] at hrun

/-- R160: bit 1024. -/
theorem LossAhead.run_1024 : runFor 1024 s = ([.stateChanged .lossCheck],
    { s with state := .lossCheck, nsel := .n6 }.fed bits rest 1024 []) := by
  have hlen := h.length
  have hrun := run_fed_checkpoint (h.waits_n4 [.stateChanged .lossCheck]) h.rq h.fault (by decide) (by omega)
    fun _ => step_fed_c4MarkFail h.rq h.fault rfl rfl (by omega) h.second
  rw [show 1024 = 512 + (1023 - 512 + 1) from rfl, runFor_add, h.run_512, hrun]
  rfl

/-- R160: bit 1536. -/
theorem LossAhead.run_1536 : runFor 1536 s = ([.stateChanged .lossCheck, .stateChanged .hunting], { s with
    state := .hunting, nsel := .n1, acc := [], events := [.stateChanged .hunting],
    supply := (bits.drop 1536).map PortIn.offer ++ rest }) := by
  have hlen := h.length
  have hrun := run_fed_checkpoint (h.waits_n6 []) h.rq h.fault (by decide) (by omega)
    fun _ => step_fed_c6MarkFail h.rq h.fault rfl rfl (by omega) h.third
  rw [show 1536 = 1024 + (1535 - 1024 + 1) from rfl, runFor_add, h.run_1024, hrun]
  rfl

/-- R160: from bit 512 to short of bit 1536 the bits are in the buffer, and n becomes 6 at bit 1024. -/
theorem LossAhead.run_lossCheck (hk : 512 ≤ k) (hk' : k < 1536) :
    ∃ evs, runFor k s = ([.stateChanged .lossCheck],
      { s with state := .lossCheck, nsel := if k < 1024 then .n4 else .n6 }.fed bits rest k evs) := by
  have hlen := h.length
  by_cases h4 : k < 1024
  · obtain ⟨evs, hrun⟩ := run_fed (h.waits_n4 [.stateChanged .lossCheck]) h.rq h.fault hk
      (Nat.le_of_lt_succ h4) (by omega)
    have hall := runFor_add 512 (k - 512) s
    rw [Nat.add_sub_cancel' hk, h.run_512, hrun] at hall
    exact ⟨evs, by rw [hall, if_pos h4]; rfl⟩
  · have h6 := Nat.le_of_not_lt h4
    obtain ⟨evs, hrun⟩ := run_fed (h.waits_n6 []) h.rq h.fault h6 (Nat.le_of_lt_succ hk') (by omega)
    have hall := runFor_add 1024 (k - 1024) s
    rw [Nat.add_sub_cancel' h6, h.run_1024, hrun] at hall
    exact ⟨evs, by rw [hall, if_neg h4]; rfl⟩

end

end

end Machine

end Sys2Proof
end

section
/-! The obligations of `44_fsm_locked_loss_check.md`. -/

namespace Sys2Proof.Machine

/-- Settles O19: off the target the append, on a full buffer its fault; n selects no other arm. -/
theorem lWaitAppendsOneBit : Obligations.LWaitAppendsOneBit := by
  intro s b hb hs
  refine ⟨fun hc hl => (ArmCase.lWait hs hc hl).selector_and_exec hb (fits_lWait s.nsel), fun hfull => ?_⟩
  exact (ArmCase.lWaitFull hs hfull.ge).exec_eq hb

/-- Settles O20: the checkpoint of `LOCKED` with the marker. -/
theorem lMarkOkEmitsPayloadAndStays : Obligations.LMarkOkEmitsPayloadAndStays := by
  intro s b hb hs hl hm
  exact (ArmCase.lMarkOk hs hl hm).selector_and_exec hb (fits_lMarkOk s.nsel)

/-- Settles O21: the checkpoint of `LOCKED` without the marker. -/
theorem lMarkFailEntersLossCheckWithBuffer : Obligations.LMarkFailEntersLossCheckWithBuffer := by
  intro s b g hb hs hl hm hg
  exact (ArmCase.lMarkFail g hs hl hm hg).selector_and_exec hb (fits_lMarkFail s.nsel g)

/-- Settles O22: off the target the append, on a full buffer its fault. -/
theorem cWaitAppendsOneBit : Obligations.CWaitAppendsOneBit := by
  intro s b hb hs hn
  have hhigh : s.nsel.isHigh = true := by rcases hn with hn | hn <;> rw [hn] <;> rfl
  refine ⟨fun hc hl => (ArmCase.cWait hs hhigh hc hl).selector_and_exec hb (fits_cWait hhigh), fun hfull => ?_⟩
  exact (ArmCase.cWaitFull hs hhigh hfull.ge).exec_eq hb

/-- Settles O23: the checkpoint of n = 4 with the marker. -/
theorem c4MarkOkRecoversLock : Obligations.C4MarkOkRecoversLock := by
  intro s b hb hs hn hl hm
  exact (ArmCase.c4MarkOk hs hn hl hm).selector_and_exec hb (by decide)

/-- Settles O24: the checkpoint of n = 6 with the marker. -/
theorem c6MarkOkRecoversLock : Obligations.C6MarkOkRecoversLock := by
  intro s b hb hs hn hl hm
  exact (ArmCase.c6MarkOk hs hn hl hm).selector_and_exec hb (by decide)

/-- Settles O25: the checkpoint of n = 4 without the marker. -/
theorem c4MarkFailGivesSecondChance : Obligations.C4MarkFailGivesSecondChance := by
  intro s b g hb hs hn hl hm hg
  exact (ArmCase.c4MarkFail g hs hn hl hm hg).selector_and_exec hb (fits_c4MarkFail g)

/-- Settles O26: the checkpoint of n = 6 without the marker. -/
theorem c6MarkFailDiscardsAndHunts : Obligations.C6MarkFailDiscardsAndHunts := by
  intro s b g hb hs hn hl hm hg
  exact (ArmCase.c6MarkFail g hs hn hl hm hg).selector_and_exec hb (fits_c6MarkFail g)

/-- Settles O28: the arm of an illegal pair, which does not look at the buffer. -/
theorem illCnRaisesFault : Obligations.IllCnRaisesFault := by
  intro s b hb hs hn
  have hlow : s.nsel.isLow = true := by rcases hn with hn | hn <;> rw [hn] <;> rfl
  exact (ArmCase.illCn hs hlow).selector_and_exec hb (fits_illCn hlow)

/-- Settles O43: a step that changes `STATE` takes an arm, and seven arms change it. -/
theorem transitionGraph : Obligations.TransitionGraph := by
  intro s t hr h hne
  rcases step_cases h with ⟨hr', -⟩ | ⟨-, -, rfl⟩ | ⟨-, -, b, i, -, harm⟩
  · rw [hr] at hr'; cases hr'
  · exact absurd rfl hne
  have hlen : ∀ k, s.accLen = k + 7 → (s.acc.take k).length = k := fun k hl =>
    List.length_take_of_le (by omega : k ≤ s.accLen)
  cases harm with
  | hHit hs => exact .inl ⟨hs, rfl, rfl⟩
  | v1GuardFail hs | v2MarkFail _ hs => exact .inr (.inl ⟨hs, rfl, rfl⟩)
  | v2MarkOk hs _ hl => exact .inr (.inr (.inl ⟨hs, rfl, _, hlen 504 hl, rfl⟩))
  | lMarkFail _ hs => exact .inr (.inr (.inr (.inl ⟨hs, rfl, rfl⟩)))
  | c4MarkOk hs _ hl => exact .inr (.inr (.inr (.inr (.inl ⟨hs, rfl, _, .inl (hlen 1016 hl), rfl⟩))))
  | c6MarkOk hs _ hl => exact .inr (.inr (.inr (.inr (.inl ⟨hs, rfl, _, .inr (hlen 1528 hl), rfl⟩))))
  | c6MarkFail _ hs => exact .inr (.inr (.inr (.inr (.inr ⟨hs, rfl, rfl⟩))))
  | _ => exact absurd rfl hne

/-- Settles O56, by the runs up to the three checkpoints and between them. -/
theorem lossEscalationTiming : Obligations.LossEscalationTiming := by
  intro s bits rest k hst hn hacc hq hf hs hl hbad1 hbad2 hbad3
  have hthird : BadOctet bits 1535 := by
    rwa [BadOctet, List.take_of_length_le (by simp [hl])]
  have h : LossAhead s bits rest := ⟨hst, hacc, hq, hf, hs, hl, hbad1, hbad2, hthird⟩
  refine ⟨fun hk => ?_, fun hk hk' => ?_, ?_⟩
  · obtain ⟨evs, hrun⟩ := h.run_locked hk
    rw [hrun]
    exact ⟨rfl, hst, rfl⟩
  · obtain ⟨evs, hrun⟩ := h.run_lossCheck hk hk'
    rw [hrun]
    exact ⟨rfl, rfl, rfl, rfl⟩
  · rintro rfl
    rw [h.run_1536]
    exact ⟨rfl, rfl, rfl, rfl, rfl, rfl, hq, rfl, rfl⟩

end Sys2Proof.Machine
end

section
/-! How a cycle treats the offered bit, which events a step emits, and how long a drain can be. -/

namespace Sys2Proof

/-- The four arms that recover a payload. -/
def Instr.RecoversPayload (i : Instr) : Prop :=
  (∃ x, i = .v2MarkOk x) ∨ (∃ n x, i = .lMarkOk n x) ∨ (∃ x, i = .c4MarkOk x) ∨ ∃ x, i = .c6MarkOk x

namespace Machine

/-! ## The offered bit -/

/-- R175. -/
theorem bitReady_iff {s : State} : bitReady s = true ↔ s.rq = [] ∧ s.fault = false := by
  simp [bitReady]

/-- R170: the conditions of an `ACCEPT` step. -/
theorem stepKind_eq_accept_iff {s : State} {b : Bit} : stepKind s = .accept b ↔
    s.pins.rst = false ∧ s.fault = false ∧ s.rq = [] ∧ s.pins.bitValid = true ∧ s.pins.bitIn = b := by
  cases hr : s.pins.rst <;> cases hf : s.fault <;> cases hq : s.rq <;> cases hv : s.pins.bitValid <;>
    simp [stepKind, hr, hf, hq, hv]

/-- R177 b: an offer that is held is the offer of the next cycle, whatever follows it. -/
theorem holdOffer_offered {l : List PortIn} {p : PortIn} (hp : p.bitValid = true) :
    ∃ r qs, holdOffer (p :: l) = ⟨r, true, p.bitIn⟩ :: qs := by
  cases l with
  | nil => exact ⟨false, [], by simp [holdOffer, hp]⟩
  | cons q qs =>
    cases hq : q.bitValid with
    | false => exact ⟨q.rst, qs, by simp [holdOffer, hp, hq]⟩
    | true => exact ⟨false, q :: qs, by simp [holdOffer, hp, hq]⟩

/-- A cycle that offers nothing is over. -/
theorem holdOffer_of_pause {s : State} (hv : s.pins.bitValid = false) : holdOffer s.supply = s.supply.tail := by
  cases hs : s.supply with
  | nil => rfl
  | cons p ps =>
    have hp : p.bitValid = false := by simpa [State.pins, hs] using hv
    simp [holdOffer, hp]

/-- R177 b on the pins: a state whose supply is the held one offers the same bit again. -/
theorem pins_of_holdOffer {s t : State} (ht : t.supply = holdOffer s.supply) (hv : s.pins.bitValid = true) :
    t.pins.bitValid = true ∧ t.pins.bitIn = s.pins.bitIn := by
  cases hs : s.supply with
  | nil => simp [State.pins, hs] at hv
  | cons p ps =>
    have hp : p.bitValid = true := by simpa [State.pins, hs] using hv
    obtain ⟨r, qs, hhold⟩ := holdOffer_offered (l := ps) hp
    rw [hs, hhold] at ht
    simp [State.pins, ht, hs]

section
variable {s t : State} {b : Bit} {i : Instr}

/-- The input advances in every arm by the step's kind alone. -/
theorem ArmCase.supply_eq (h : ArmCase s b i t) : t.supply = nextSupply s := by
  cases h <;> rfl

/-- R75, R83: the decoder reads the step's selector as the arm that is taken. -/
theorem ArmCase.decode_selector (h : ArmCase s b i t) : decode (.sel (selector s b)) = .ok i :=
  h.selected ▸ decode_encode h.wellFormed

/-- R130: the symbol of the step's bit runs the arm that the selector decodes to. -/
theorem exec_symbol_eq_exec_arm (hb : nextBit s = some b) :
    ∃ i t, decode (.sel (selector s b)) = .ok i ∧ exec (if b then .bit1 else .bit0) s = .next t ∧
      exec i s = .next t := by
  obtain ⟨i, t, hc⟩ := exists_armCase s b
  have hrun := hc.exec_eq hb
  exact ⟨i, t, hc.decode_selector, (exec_symbol hb).trans (hc.stateLogic_eq.trans hrun), hrun⟩

/-! ## The events of a step -/

/-- R178, R189: what an arm emits. `StateChanged` names the state entered, and is there exactly when `STATE` changes; a
payload comes before it. -/
theorem ArmCase.events_cases (h : ArmCase s b i t) :
    (t.state = s.state ∧ (t.events = [] ∨ ∃ q, t.events = [.payloadRecovered q])) ∨
    (t.state ≠ s.state ∧
      (t.events = [.stateChanged t.state] ∨ ∃ q, t.events = [.payloadRecovered q, .stateChanged t.state])) := by
  cases h with
  | lMarkOk => exact .inl ⟨rfl, .inr ⟨_, rfl⟩⟩
  | hHit hs | v1GuardFail hs | v2MarkFail _ hs | lMarkFail _ hs | c6MarkFail _ hs =>
    exact .inr ⟨by simp [hs], .inl rfl⟩
  | v2MarkOk hs | c4MarkOk hs | c6MarkOk hs => exact .inr ⟨by simp [hs], .inr ⟨_, rfl⟩⟩
  | _ => exact .inl ⟨rfl, .inl rfl⟩

/-- R178: an arm emits `StateChanged(S)` exactly when it changes `STATE` to S. -/
theorem ArmCase.stateChanged_mem_iff (h : ArmCase s b i t) (S : AlignState) :
    Event.stateChanged S ∈ t.events ↔ t.state ≠ s.state ∧ S = t.state := by
  rcases h.events_cases with ⟨hs, he | ⟨q, he⟩⟩ | ⟨hs, he | ⟨q, he⟩⟩ <;> simp [hs, he]

/-- R113: exactly the `_MARK_OK` arms emit a payload. -/
theorem ArmCase.payload_mem_iff (h : ArmCase s b i t) :
    (∃ q, Event.payloadRecovered q ∈ t.events) ↔ i.RecoversPayload := by
  cases h with
  | v2MarkOk => exact iff_of_true ⟨_, .head _⟩ (.inl ⟨_, rfl⟩)
  | lMarkOk => exact iff_of_true ⟨_, .head _⟩ (.inr (.inl ⟨_, _, rfl⟩))
  | c4MarkOk => exact iff_of_true ⟨_, .head _⟩ (.inr (.inr (.inl ⟨_, rfl⟩)))
  | c6MarkOk => exact iff_of_true ⟨_, .head _⟩ (.inr (.inr (.inr ⟨_, rfl⟩)))
  | _ => simp [Instr.RecoversPayload]

/-- R189: the event list of a step; no step emits two events of one kind. -/
theorem step_events_cases (h : step s = .next t) :
    t.events = [] ∨ (∃ q, t.events = [.payloadRecovered q]) ∨ t.events = [.stateChanged t.state] ∨
      ∃ q, t.events = [.payloadRecovered q, .stateChanged t.state] := by
  rcases step_cases h with ⟨-, rfl⟩ | ⟨-, -, rfl⟩ | ⟨-, -, b, i, -, harm⟩
  · exact .inl rfl
  · exact .inl rfl
  · rcases harm.events_cases with ⟨-, he | he⟩ | ⟨-, he | he⟩
    · exact .inl he
    · exact .inr (.inl he)
    · exact .inr (.inr (.inl he))
    · exact .inr (.inr (.inr he))

/-- R174: a `StateChanged` of the step is the one the ports show, and names the state the step enters. -/
theorem newStateOf_of_mem {S : AlignState} (h : step s = .next t) (hS : Event.stateChanged S ∈ t.events) :
    newStateOf (cycleEvents s) = some S ∧ S = t.state := by
  rw [cycleEvents_of_step h]
  rcases step_events_cases h with he | ⟨q, he⟩ | he | ⟨q, he⟩
  · simp [he] at hS
  · simp [he] at hS
  · have hst : S = t.state := by simpa [he] using hS
    simp [he, hst]
  · have hst : S = t.state := by simpa [he] using hS
    simp [he, hst]

/-- R174: a `PayloadRecovered` of the step is the one the ports show. -/
theorem payloadOf_of_mem {q : BitSeq} (h : step s = .next t) (hq : Event.payloadRecovered q ∈ t.events) :
    payloadOf (cycleEvents s) = some q := by
  rw [cycleEvents_of_step h]
  rcases step_events_cases h with he | ⟨p, he⟩ | he | ⟨p, he⟩
  · simp [he] at hq
  · have hp : q = p := by simpa [he] using hq
    simp [he, hp]
  · simp [he] at hq
  · have hp : q = p := by simpa [he] using hq
    simp [he, hp]

end

/-! ## The length of a drain -/

/-- R206: a bound on the edges that a drain from s takes. In `HUNTING` only a queue of 259 bits or more holds a match
and a whole frame after it, as R125 excludes 257 and 258; in `VERIFYING` the frame's checkpoint is `256 - ACC_LEN` bits
ahead, and may load the queue again with 256 bits. Otherwise the queue reaches no checkpoint. -/
def drainBoundFrom (s : State) : Nat :=
  match s.state, s.nsel with
  | .hunting, _ => if 259 ≤ s.rqLen then s.rqLen + 254 else s.rqLen
  | .verifying, .n1 => if 256 ≤ s.accLen + s.rqLen then 512 - s.accLen else s.rqLen
  | _, _ => s.rqLen

section
variable {s t : State} {b : Bit} {i : Instr}

/-- R41: the rows of the table in which there are bits to replay. -/
theorem replay_cases (ht : reachableTable s) (hq : s.rq ≠ []) :
    (s.state = .hunting ∧ s.rqLen ≤ 512) ∨
    (s.state = .verifying ∧ s.nsel = .n1 ∧ s.accLen ≤ 255 ∧ s.accLen + s.rqLen ≤ 505) ∨
    (s.state = .verifying ∧ s.nsel = .n2 ∧ s.accLen + s.rqLen ≤ 505) := by
  have hr : s.rqLen ≠ 0 := by simpa using hq
  cases hs : s.state with
  | hunting =>
    obtain ⟨-, -, -, hcap⟩ := (reachableTable_hunting_iff hs).mp ht
    exact .inl ⟨rfl, hcap⟩
  | verifying =>
    obtain ⟨-, hrow, hlen, -⟩ := (reachableTable_verifying_iff hs).mp ht
    have hlen := hlen.resolve_left hr
    rcases hrow with ⟨hn, ha⟩ | ⟨hn, -⟩
    · exact .inr (.inl ⟨rfl, hn, ha, hlen⟩)
    · exact .inr (.inr ⟨rfl, hn, hlen⟩)
  | locked =>
    obtain ⟨-, -, -, h0, -⟩ := (reachableTable_locked_iff hs).mp ht
    exact absurd h0 hr
  | lossCheck =>
    obtain ⟨-, -, h0, -⟩ := (reachableTable_lossCheck_iff hs).mp ht
    exact absurd h0 hr

theorem drainBoundFrom_hunting {r : Nat} (hs : s.state = .hunting) (hr : s.rqLen = r) :
    drainBoundFrom s = if 259 ≤ r then r + 254 else r := by
  simp only [drainBoundFrom, hs, hr]

theorem drainBoundFrom_first_frame {a r : Nat} (hs : s.state = .verifying) (hn : s.nsel = .n1) (ha : s.accLen = a)
    (hr : s.rqLen = r) : drainBoundFrom s = if 256 ≤ a + r then 512 - a else r := by
  simp only [drainBoundFrom, hs, hn, ha, hr]

theorem drainBoundFrom_second_frame {r : Nat} (hs : s.state = .verifying) (hn : s.nsel = .n2) (hr : s.rqLen = r) :
    drainBoundFrom s = r := by
  simp only [drainBoundFrom, hs, hn, hr]

/-- R206: while there are bits to replay the bound is not 0, and it is at most 766. -/
theorem drainBoundFrom_range (ht : reachableTable s) (hq : s.rq ≠ []) :
    0 < drainBoundFrom s ∧ drainBoundFrom s ≤ 766 := by
  have hr : 0 < s.rqLen := List.length_pos_iff.mpr hq
  rcases replay_cases ht hq with ⟨hs, hcap⟩ | ⟨hs, hn, ha, hlen⟩ | ⟨hs, hn, hlen⟩
  · rw [drainBoundFrom_hunting hs rfl]; split <;> omega
  · rw [drainBoundFrom_first_frame hs hn rfl rfl]; split <;> omega
  · rw [drainBoundFrom_second_frame hs hn rfl]; omega

/-- R125: no match has 256 or 257 bits of the queue behind it, as the guard bit is then where the marker has a 0. -/
theorem rqLen_ne_of_hit (hi : reachableInv s) (hs : s.state = .hunting) (hm : winNext b s = Config.marker) :
    s.rqLen ≠ 257 ∧ s.rqLen ≠ 258 := by
  obtain ⟨-, -, hw, -, -, -, hguard⟩ := hi
  rw [winNext_eq b hw] at hm
  constructor <;> intro hr <;> have hbit := hguard hs (by omega) (by omega) <;> rw [hr] at hbit
  · exact one_not_marker 5 (.inr rfl) s.win b hbit hm
  · exact one_not_marker 4 (.inl rfl) s.win b hbit hm

/-- R206: every replayed bit brings the end of the drain nearer. -/
theorem ArmCase.drainBoundFrom_lt (h : ArmCase s b i t) (hi : reachableInv s) (hq : s.rq ≠ []) :
    drainBoundFrom t < drainBoundFrom s := by
  have hr : 0 < s.rqLen := List.length_pos_iff.mpr hq
  have htail : s.rq.tail.length = s.rqLen - 1 := List.length_tail
  have happ : (s.acc ++ [b]).length = s.accLen + 1 := by simp
  have hcap : Config.accCap = 1536 := rfl
  obtain ⟨ht, -⟩ := id hi
  rcases replay_cases ht hq with ⟨hs, hlen⟩ | ⟨hs, hn, ha, hlen⟩ | ⟨hs, hn, hlen⟩
  · rw [drainBoundFrom_hunting hs rfl]
    cases h with
    | hMiss =>
      refine lt_of_eq_of_lt (drainBoundFrom_hunting hs htail) ?_
      split <;> split <;> omega
    | hHit _ hm =>
      obtain ⟨h257, h258⟩ := rqLen_ne_of_hit hi hs hm
      refine lt_of_eq_of_lt (drainBoundFrom_first_frame (a := 0) rfl rfl rfl htail) ?_
      split <;> split <;> omega
    | _ => simp_all
  · rw [drainBoundFrom_first_frame hs hn rfl rfl]
    cases h with
    | vWait _ _ _ hl =>
      rw [hn, NSel.val] at hl
      refine lt_of_eq_of_lt (drainBoundFrom_first_frame hs hn happ htail) ?_
      split <;> split <;> omega
    | v1GuardOk =>
      refine lt_of_eq_of_lt (drainBoundFrom_second_frame hs rfl htail) ?_
      split <;> omega
    | v1GuardFail =>
      refine lt_of_eq_of_lt (drainBoundFrom_hunting rfl happ) ?_
      split <;> split <;> omega
    | vWaitFull => omega
    | illVn _ hhigh => rw [hn] at hhigh; cases hhigh
    | _ => simp_all
  · rw [drainBoundFrom_second_frame hs hn rfl]
    cases h with
    | vWait =>
      refine lt_of_eq_of_lt (drainBoundFrom_second_frame hs hn htail) ?_
      omega
    | vWaitFull | v2MarkOk | v2MarkFail => omega
    | illVn _ hhigh => rw [hn] at hhigh; cases hhigh
    | _ => simp_all

/-- R206: reset empties the queue at once, and any other edge of a drain brings its end nearer. -/
theorem step_drainBoundFrom_lt (hi : reachableInv s) (hq : s.rq ≠ []) (h : step s = .next t) :
    drainBoundFrom t < drainBoundFrom s := by
  obtain ⟨htab, -⟩ := id hi
  obtain ⟨hf, -⟩ := id htab
  obtain ⟨hpos, -⟩ := drainBoundFrom_range htab hq
  rcases step_cases h with ⟨-, rfl⟩ | ⟨hr, hnone, -⟩ | ⟨-, -, b, i, -, harm⟩
  · exact hpos
  · obtain ⟨b, q, hbq⟩ := List.exists_cons_of_ne_nil hq
    rw [nextBit_replay hr hf hbq] at hnone
    cases hnone
  · exact harm.drainBoundFrom_lt hi hq

/-- R206, R41: a drain that is given enough edges ends with an empty queue, in a state of the invariant. -/
theorem drain_empties (k : Nat) (hi : reachableInv s) (hk : s.rq ≠ [] → drainBoundFrom s ≤ k) :
    (drain k s).2.rq = [] ∧ reachableInv (drain k s).2 := by
  induction k generalizing s with
  | zero =>
    refine ⟨?_, hi⟩
    by_contra hq
    obtain ⟨hpos, -⟩ := drainBoundFrom_range hi.1 hq
    exact absurd (hk hq) hpos.not_ge
  | succ k ih =>
    by_cases hq : s.rq = []
    · rw [drain, if_pos hq]
      exact ⟨hq, hi⟩
    · obtain ⟨t, ht⟩ := step_next s
      have hlt := step_drainBoundFrom_lt hi hq ht
      have hend := ih (stepKeepsReachableInvariant s t hi ht) fun _ => Nat.le_of_lt_succ (hlt.trans_le (hk hq))
      simpa only [drain, if_neg hq, ht] using hend

/-- R180: `process_bit` ends where the drain after its one `ACCEPT` step ends. -/
theorem processBit_of_step (h : step { s with supply := [PortIn.offer b] } = .next t) :
    (processBit b s).2 = (drain Config.drainBound t).2 := by
  simp only [processBit, h]

end

end Machine

end Sys2Proof
end

section
/-! The obligations of `45_host_interface.md`. -/

namespace Sys2Proof.Machine

/-- Settles O53: the step and the drain keep the invariant, and 768 edges are enough. -/
theorem processBitLeavesBlockReady : Obligations.ProcessBitLeavesBlockReady := by
  intro s b hi _
  obtain ⟨t, ht⟩ := step_next { s with supply := [PortIn.offer b] }
  have hit : reachableInv t := stepKeepsReachableInvariant { s with supply := [PortIn.offer b] } t hi ht
  have hbound : t.rq ≠ [] → drainBoundFrom t ≤ Config.drainBound := fun hq =>
    (drainBoundFrom_range hit.1 hq).2.trans (by decide)
  obtain ⟨hq, hend⟩ := drain_empties Config.drainBound hit hbound
  obtain ⟨⟨hf, -⟩, -⟩ := id hend
  rw [processBit_of_step ht]
  exact ⟨hq, hend, bitReady_iff.mpr ⟨hq, hf⟩⟩

/-- Settles O7: the symbol of the step's bit, which is 0 or 1. -/
theorem symbolsCompleteAsStateLogic : Obligations.SymbolsCompleteAsStateLogic := fun _ =>
  ⟨exec_symbol_eq_exec_arm, exec_symbol_eq_exec_arm⟩

/-- Settles O8: the input advances by where the bit came from, whatever the arm does. -/
theorem offerIsTakenOnlyByAccept : Obligations.OfferIsTakenOnlyByAccept := by
  intro i s t h
  obtain ⟨b, j, hb, harm, -⟩ := exec_cases h
  have hsup := harm.supply_eq
  obtain ⟨-, -, ⟨q, hq, hkind⟩ | ⟨hq, hv, -, hkind⟩⟩ := nextBit_cases hb <;>
    simp only [nextSupply, hkind] at hsup
  · exact ⟨fun _ hv => pins_of_holdOffer hsup hv, fun _ hv => hsup.trans (holdOffer_of_pause hv),
      fun h0 => by simp [hq] at h0⟩
  · exact ⟨fun hne => absurd hq hne, fun hne => absurd hq hne, fun _ => ⟨hv, hsup⟩⟩

/-- Settles O39: a cycle without a bit emits nothing, and an arm is the one its selector decodes to. -/
theorem eventsExactlyWhenListed : Obligations.EventsExactlyWhenListed := by
  intro s t h
  rcases step_cases h with ⟨hr, rfl⟩ | ⟨hr, hnone, rfl⟩ | ⟨hr, -, b, i, hb, harm⟩
  · have hnone : nextBit s = none := by simp [nextBit, stepKind, hr]
    simp [hr, hnone]
  · simp [hr, hnone]
  · refine ⟨fun hr' => by simp [hr] at hr', fun _ S => harm.stateChanged_mem_iff S, ?_⟩
    rw [harm.payload_mem_iff]
    constructor
    · exact fun hi => ⟨b, i, hb, harm.decode_selector, hi⟩
    · rintro ⟨b', i', hb', hdec, hi⟩
      cases hb.symm.trans hb'
      cases harm.decode_selector.symm.trans hdec
      exact hi

/-- Settles O42: a step emits at most one event of each kind, so the one there is is the one shown. -/
theorem portsCarryTheEvents : Obligations.PortsCarryTheEvents := by
  intro s t p hp h
  refine ⟨?_, fun S hS => ?_, ?_, fun q hq => ?_⟩
  · rw [hp.changed, newStateOf_isSome, cycleEvents_of_step h]
  · obtain ⟨hshown, hst⟩ := newStateOf_of_mem h hS
    exact ⟨hp.newState S hshown, hst⟩
  · rw [hp.valid, payloadOf_isSome, cycleEvents_of_step h]
  · have hshown := payloadOf_of_mem h hq
    exact ⟨hp.length q hshown, hp.payload q hshown⟩

/-- Settles O4: the four kinds of a cycle without reset. -/
theorem stepSelectionPriority : Obligations.StepSelectionPriority := by
  intro s hr
  have hkept : sameRegisters (nextCycle s) s := ⟨rfl, rfl, rfl, rfl, rfl, rfl, rfl, rfl⟩
  refine ⟨fun hf => ⟨_, step_of_halted hr hf, hkept, rfl⟩, fun hf b q hq => step_of_bit (nextBit_replay hr hf hq),
    fun hf hq hv => step_of_bit (nextBit_accept hr hf hq hv),
    fun hf hq hv => ⟨_, step_of_idle hr hf hq hv, hkept, rfl⟩⟩

/-- Settles O11: without reset, the conditions of an `ACCEPT` step beyond the offer are those of `bit_ready`. -/
theorem readyExactlyWhenBitIsAccepted : Obligations.ReadyExactlyWhenBitIsAccepted := by
  intro s
  refine ⟨by rw [bitReady_iff, List.length_eq_zero_iff], fun hr hv => ?_⟩
  rw [bitReady_iff, stepKind_eq_accept_iff]
  constructor
  · exact fun ⟨hq, hf⟩ => ⟨hr, hf, hq, hv, rfl⟩
  · exact fun ⟨_, hf, hq, _⟩ => ⟨hq, hf⟩

end Sys2Proof.Machine
end

section
/-! When a step raises a fault, and what it leaves when it does (R186, R190). -/

namespace Sys2Proof.Machine

section
variable {s t : State} {b : Bit} {i : Instr}

/-- R186, R190: an arm keeps the fault registers, or it is the fault of an illegal pair or of a full buffer outside
`HUNTING`. -/
theorem ArmCase.fault_cases (h : ArmCase s b i t) :
    (t.fault = s.fault ∧ t.faultCode = s.faultCode) ∨
      ∃ c, t = raiseFault s c ∧
        (illegalPair s.state s.nsel = true ∨ (s.state ≠ .hunting ∧ Config.accCap ≤ s.accLen)) := by
  cases h with
  | illVn hs hn | illCn hs hn => exact .inr ⟨_, rfl, .inl (by rw [hs]; exact hn)⟩
  | vWaitFull hs _ hc | lWaitFull hs hc | cWaitFull hs _ hc => exact .inr ⟨_, rfl, .inr ⟨by simp [hs], hc⟩⟩
  | _ => exact .inl ⟨rfl, rfl⟩

/-- R82, R115: in a legal pair with room in the buffer, or in `HUNTING`, an arm keeps the fault registers. -/
theorem ArmCase.fault_eq (h : ArmCase s b i t) (hi : illegalPair s.state s.nsel = false)
    (hc : s.state = .hunting ∨ s.accLen < Config.accCap) : t.fault = s.fault ∧ t.faultCode = s.faultCode := by
  rcases h.fault_cases with hkeep | ⟨-, -, hill | ⟨hs, hfull⟩⟩
  · exact hkeep
  · simp [hi] at hill
  · exact absurd hfull (Nat.not_le.mpr (hc.resolve_left hs))

/-- R190: a step from which `FAULT` is newly 1 did nothing but raise a fault. -/
theorem eq_raiseFault_of_step (h : step s = .next t) (hs : s.fault = false) (ht : t.fault = true) :
    ∃ c, t = raiseFault s c := by
  rcases step_cases h with ⟨-, rfl⟩ | ⟨-, -, rfl⟩ | ⟨-, -, b, i, -, harm⟩
  · simp at ht
  · simp [hs] at ht
  · rcases harm.fault_cases with ⟨hkeep, -⟩ | ⟨c, hc, -⟩
    · simp [hkeep, hs] at ht
    · exact ⟨c, hc⟩

end

end Sys2Proof.Machine
end

section
/-! The obligations of `60_exceptions.md`. -/

namespace Sys2Proof.Machine

/-- Settles O30: each listed condition has its faulting arm, and every other arm keeps the fault registers. -/
theorem faultRaisedExactlyWhenListed : Obligations.FaultRaisedExactlyWhenListed := by
  rintro s t b ⟨hacc, -⟩ hb h
  refine ⟨fun hs hn => ?_, fun hs hn => ?_, fun hi hs hfull => ?_, fun hi hc => ?_⟩
  · have hhigh : s.nsel.isHigh = true := by rcases hn with hn | hn <;> rw [hn] <;> rfl
    cases h.symm.trans (step_of_armCase hb (.illVn hs hhigh))
    exact ⟨rfl, rfl⟩
  · have hlow : s.nsel.isLow = true := by rcases hn with hn | hn <;> rw [hn] <;> rfl
    cases h.symm.trans (step_of_armCase hb (.illCn hs hlow))
    exact ⟨rfl, rfl⟩
  · cases h.symm.trans (fullBufferRaisesAccOverflow s b hb hs hi hfull)
    exact ⟨rfl, rfl⟩
  · obtain ⟨i, harm⟩ := armCase_of_step hb h
    obtain ⟨-, hf, -⟩ := nextBit_cases hb
    obtain ⟨hfault, hcode⟩ := harm.fault_eq hi (hc.imp_right fun hne => Nat.lt_of_le_of_ne hacc hne)
    exact ⟨hfault.trans hf, hcode⟩

/-- Settles O31: the step is `raiseFault`, which begins from the registers before the pop. -/
theorem faultsArePrecise : Obligations.FaultsArePrecise := by
  intro s t h hs ht
  obtain ⟨c, rfl⟩ := eq_raiseFault_of_step h hs ht
  exact ⟨⟨rfl, rfl, rfl, rfl, rfl, rfl, rfl, rfl⟩, rfl⟩

/-- Settles O3: reset comes before the halt. -/
theorem haltedUntilReset : Obligations.HaltedUntilReset := by
  intro s hf
  exact ⟨fun hr => ⟨by simp [bitReady, hf], _, step_of_halted hr hf, ⟨rfl, rfl, rfl, rfl, rfl, rfl, rfl, rfl⟩, rfl⟩,
    fun hr => ⟨_, step_of_reset hr, ⟨rfl, rfl, rfl, rfl, rfl, rfl, rfl, rfl⟩, rfl⟩⟩

/-- Settles O40: a step that leaves `FAULT` = 1 raised the fault, or began halted. -/
theorem payloadEventComesFirst : Obligations.PayloadEventComesFirst := by
  intro s t h
  constructor
  · rcases step_events_cases h with he | he | he | ⟨q, he⟩
    · exact .inl he
    · exact .inr (.inr (.inl he))
    · exact .inr (.inl ⟨_, he⟩)
    · exact .inr (.inr (.inr ⟨q, _, he⟩))
  · intro ht
    rcases step_cases h with ⟨-, rfl⟩ | ⟨-, -, rfl⟩ | ⟨-, hf, -⟩
    · rfl
    · rfl
    · exact (faultsArePrecise s t h hf ht).2

end Sys2Proof.Machine
end

section
/-! The drain loop as a run of edges, and the input that a reset cycle passes on. -/

namespace Sys2Proof.Machine

section
variable {s t : State}

/-- The first edge of a run, then the others. -/
theorem run_succ_of_step (k : Nat) (h : step s = .next t) :
    Sys2Proof.core.run (k + 1) s = Sys2Proof.core.run k t := by
  simp only [Host.Core.run, show Sys2Proof.core.step s = .next t from h]

/-- R205: the drain loop is a run, cut short where the queue is empty. -/
theorem exists_run_eq_drain (k : Nat) (s : State) : ∃ j ≤ k, Sys2Proof.core.run j s = .next (drain k s).2 := by
  induction k generalizing s with
  | zero => exact ⟨0, le_rfl, rfl⟩
  | succ k ih =>
    by_cases hq : s.rq = []
    · exact ⟨0, Nat.zero_le _, by rw [drain, if_pos hq]; rfl⟩
    · obtain ⟨t, ht⟩ := step_next s
      obtain ⟨j, hj, hrun⟩ := ih t
      refine ⟨j + 1, Nat.succ_le_succ hj, ?_⟩
      simpa only [drain, if_neg hq, ht] using (run_succ_of_step j ht).trans hrun

/-- R177 b: a bit offered in a reset cycle is held for the next. -/
theorem nextSupply_of_reset (h : s.pins.rst = true) : nextSupply s = holdOffer s.supply := by
  have hkind : stepKind s = .reset := if_pos h
  rw [nextSupply, hkind]

end

end Sys2Proof.Machine
end

section
/-! The obligations of `70_reset_and_hazards.md`. -/

namespace Sys2Proof.Machine

/-- Settles O52: 766 edges are enough for a drain from any state of the invariant. -/
theorem drainEndsWithin766Edges : Obligations.DrainEndsWithin766Edges := by
  intro s hi
  obtain ⟨k, hk, hrun⟩ := exists_run_eq_drain 766 s
  obtain ⟨hempty, -⟩ := drain_empties 766 hi fun hq => (drainBoundFrom_range hi.1 hq).2
  exact ⟨k, _, hk, hrun, hempty⟩

/-- Settles O2: the step is a reset cycle, which passes the input on as a held offer. -/
theorem resetRestoresAnyState : Obligations.ResetRestoresAnyState := by
  intro s hr
  rw [step_of_reset hr, resetCycle, nextSupply_of_reset hr]
  exact ⟨rfl, by simp [bitReadyPort, hr]⟩

end Sys2Proof.Machine
end
